-- ==== Sys2Proof/Word.lean ====
section
/-! DEFINITION. The word types of TCPCODEC: a byte of a wire or operand array, the two register widths, and a host offset. -/

namespace Sys2Proof

/-- One byte of BUF, IN_OPT or IN_PAY (10_state.md R36, R39, R40). -/
abbrev Byte := BitVec 8

/-- A 16-bit register or wire field (10_state.md R22, R26). -/
abbrev Half := BitVec 16

/-- A 32-bit register, wire field or command word (10_state.md R24, 30_encoding.md R80). -/
abbrev Word := BitVec 32

/-- A byte offset in a unit's host window of 2^18 bytes (10_state.md R46). -/
abbrev Offset := BitVec 18

end Sys2Proof
end

