-- ==== Sys2Proof/Syntax.lean ====
section
/-! DEFINITION. The command set: one constructor per row of spec/opcode_table.json (30_encoding.md R82), and the field selectors
of R83. -/

namespace Sys2Proof

/-- The field selector FID, one name per 4-bit value (30_encoding.md R83). The last two are the reserved selectors 14 and 15. -/
inductive Fid where
  | srcPort
  | dstPort
  | seq
  | ack
  | dataOffset
  | reserved
  | flags
  | window
  | checksum
  | urgent
  | options
  | payload
  | srcAddr
  | dstAddr
  | illegal14
  | illegal15
  deriving DecidableEq, Repr

/-- The 23 commands of 30_encoding.md R82. -/
inductive Instr where
  | newAck
  | newAckSyn
  | newRst
  | fromHeader
  | setField (f : Fid)
  | parse
  | serialize
  | serializeFixup
  | getSize
  | tag
  | getSrcPort
  | getDstPort
  | getSeq
  | getAck
  | getSrcAddr
  | getDstAddr
  | getField (f : Fid)
  | isAck
  | isRst
  | isSyn
  | isFin
  | isRstOrFin
  | format
  deriving DecidableEq, Repr

end Sys2Proof
end

