-- ==== Sys2Proof/WellFormed.lean ====
section
/-! DEFINITION. Which terms of Instr are commands of the block: SET_FIELD and GET_FIELD need a legal field selector
(30_encoding.md R83, R84); every other command is well formed as it stands. -/

namespace Sys2Proof

/-- FID 0 to 13 name a field; 14 and 15 are reserved (30_encoding.md R83). -/
def Fid.legal : Fid → Bool
  | .srcPort | .dstPort | .seq | .ack => true
  | .dataOffset | .reserved | .flags => true
  | .window | .checksum | .urgent => true
  | .options | .payload | .srcAddr | .dstAddr => true
  | .illegal14 | .illegal15 => false

/-- A well-formed command (30_encoding.md R84, last condition; the other conditions are about the word and are the decoder's). -/
def Instr.wellFormed : Instr → Bool
  | .setField f => f.legal
  | .getField f => f.legal
  | .newAck | .newAckSyn | .newRst | .fromHeader => true
  | .parse => true
  | .serialize | .serializeFixup | .getSize | .tag => true
  | .getSrcPort | .getDstPort | .getSeq | .getAck | .getSrcAddr | .getDstAddr => true
  | .isAck | .isRst | .isSyn | .isFin | .isRstOrFin => true
  | .format => true

end Sys2Proof
end

