-- ==== Sys2Proof/Decode.lean ====
section
/-! DEFINITION. The decoder, total on every 32-bit word (30_encoding.md R84, R85), and the encoder, both from the opcode map R82
and the selector table R83. -/

namespace Sys2Proof

/-- Why a word is illegal, one name per condition of 30_encoding.md R84. -/
inductive DecodeError where
  /-- Bits 31:12 are not zero. -/
  | mbzNotZero
  /-- OPC is not in the map of R82. -/
  | unknownOpcode
  /-- FID is not zero for a command that has no selector. -/
  | fidNotZero
  /-- FID is 14 or 15 for SET_FIELD or GET_FIELD. -/
  | fidReserved
  deriving DecidableEq, Repr

/-- What an OPC value names: a command without a selector, or one of the two that take FID (30_encoding.md R80). -/
inductive OpcodeEntry where
  | plain (i : Instr)
  | setField
  | getField
  deriving DecidableEq, Repr

/-- OPC, bits 7:0 of the word (30_encoding.md R80). -/
def wordOpc (w : Word) : BitVec 8 := w.extractLsb' 0 8

/-- FID, bits 11:8 of the word (30_encoding.md R80). -/
def wordFid (w : Word) : BitVec 4 := w.extractLsb' 8 4

/-- MBZ, bits 31:12 of the word (30_encoding.md R80). -/
def wordMbz (w : Word) : BitVec 20 := w.extractLsb' 12 20

/-- The opcode map (30_encoding.md R82). -/
def opcodeMap (opc : BitVec 8) : Option OpcodeEntry :=
  match opc.toNat with
  | 0x01 => some (.plain .newAck)
  | 0x02 => some (.plain .newAckSyn)
  | 0x03 => some (.plain .newRst)
  | 0x04 => some (.plain .fromHeader)
  | 0x05 => some .setField
  | 0x10 => some (.plain .parse)
  | 0x20 => some (.plain .serialize)
  | 0x21 => some (.plain .serializeFixup)
  | 0x22 => some (.plain .getSize)
  | 0x23 => some (.plain .tag)
  | 0x30 => some (.plain .getSrcPort)
  | 0x31 => some (.plain .getDstPort)
  | 0x32 => some (.plain .getSeq)
  | 0x33 => some (.plain .getAck)
  | 0x34 => some (.plain .getSrcAddr)
  | 0x35 => some (.plain .getDstAddr)
  | 0x36 => some .getField
  | 0x40 => some (.plain .isAck)
  | 0x41 => some (.plain .isRst)
  | 0x42 => some (.plain .isSyn)
  | 0x43 => some (.plain .isFin)
  | 0x44 => some (.plain .isRstOrFin)
  | 0x50 => some (.plain .format)
  | _ => none

/-- The selector table (30_encoding.md R83). -/
def fidOfBits (b : BitVec 4) : Fid :=
  match b.toNat with
  | 0 => .srcPort
  | 1 => .dstPort
  | 2 => .seq
  | 3 => .ack
  | 4 => .dataOffset
  | 5 => .reserved
  | 6 => .flags
  | 7 => .window
  | 8 => .checksum
  | 9 => .urgent
  | 10 => .options
  | 11 => .payload
  | 12 => .srcAddr
  | 13 => .dstAddr
  | 14 => .illegal14
  | _ => .illegal15

/-- The decoder: first MBZ, then OPC, then FID (30_encoding.md R85). -/
def decode (w : Word) : Except DecodeError Instr :=
  if wordMbz w ≠ 0 then .error .mbzNotZero
  else
    match opcodeMap (wordOpc w) with
    | none => .error .unknownOpcode
    | some (.plain i) => if wordFid w ≠ 0 then .error .fidNotZero else .ok i
    | some .setField =>
      if (fidOfBits (wordFid w)).legal then .ok (.setField (fidOfBits (wordFid w))) else .error .fidReserved
    | some .getField =>
      if (fidOfBits (wordFid w)).legal then .ok (.getField (fidOfBits (wordFid w))) else .error .fidReserved

/-- The 4-bit value of a selector (30_encoding.md R83). -/
def fidBits : Fid → BitVec 4
  | .srcPort => 0
  | .dstPort => 1
  | .seq => 2
  | .ack => 3
  | .dataOffset => 4
  | .reserved => 5
  | .flags => 6
  | .window => 7
  | .checksum => 8
  | .urgent => 9
  | .options => 10
  | .payload => 11
  | .srcAddr => 12
  | .dstAddr => 13
  | .illegal14 => 14
  | .illegal15 => 15

/-- The OPC value of a command (30_encoding.md R82). -/
def instrOpc : Instr → BitVec 8
  | .newAck => 0x01
  | .newAckSyn => 0x02
  | .newRst => 0x03
  | .fromHeader => 0x04
  | .setField _ => 0x05
  | .parse => 0x10
  | .serialize => 0x20
  | .serializeFixup => 0x21
  | .getSize => 0x22
  | .tag => 0x23
  | .getSrcPort => 0x30
  | .getDstPort => 0x31
  | .getSeq => 0x32
  | .getAck => 0x33
  | .getSrcAddr => 0x34
  | .getDstAddr => 0x35
  | .getField _ => 0x36
  | .isAck => 0x40
  | .isRst => 0x41
  | .isSyn => 0x42
  | .isFin => 0x43
  | .isRstOrFin => 0x44
  | .format => 0x50

/-- The FID value of a command: its selector for SET_FIELD and GET_FIELD, 0 for every other (30_encoding.md R80, R82). -/
def instrFid : Instr → BitVec 4
  | .setField f => fidBits f
  | .getField f => fidBits f
  | .newAck | .newAckSyn | .newRst | .fromHeader => 0
  | .parse => 0
  | .serialize | .serializeFixup | .getSize | .tag => 0
  | .getSrcPort | .getDstPort | .getSeq | .getAck | .getSrcAddr | .getDstAddr => 0
  | .isAck | .isRst | .isSyn | .isFin | .isRstOrFin => 0
  | .format => 0

/-- The command word: MBZ ++ FID ++ OPC (30_encoding.md R80). -/
def encode (i : Instr) : Word := (0 : BitVec 20) ++ instrFid i ++ instrOpc i

/-- The command word of an opcode-table row whose nbits bits are w; the bits above nbits are 0. -/
def tableWord (nbits w : Nat) : Word := BitVec.ofNat 32 (w % 2 ^ nbits)

/-- The instruction the decoder reads from a word numbered as spec/opcode_table.json numbers it: the table's bit k is bit k of the
command word (30_encoding.md R80, 00_scope.md R11). A number with a bit above bit 31 is no command word (R80: one length). -/
def decodeTableWord (nbits w : Nat) : Option Instr :=
  if w % 2 ^ nbits < 2 ^ 32 then
    match decode (tableWord nbits w) with
    | .ok i => some i
    | .error _ => none
  else none

end Sys2Proof
end

