-- ==== Sys2Proof/Config.lean ====
section
/-! DEFINITION. The implementation parameters (00_scope.md R7, R8). The spec fixes OPT_MAX and leaves the others open: each open
one is an opaque constant of a type that holds exactly the values the spec allows, so a proof holds for every one of them (log 4). -/

namespace Sys2Proof

/-- OPT_MAX, the bytes of option storage: "the largest options region a 4-bit data offset can describe" (R7, D4). -/
abbrev Config.optMax : Nat := 40

/-- PAYLOAD_MAX as an element of 0..65475 (R7, R8, D3). -/
opaque Config.payloadMaxChoice : Fin 65476

/-- PAYLOAD_MAX, the bytes of payload storage; 0 <= PAYLOAD_MAX <= 65475 (R7, R8). -/
def Config.payloadMax : Nat := Config.payloadMaxChoice.val

/-- BUF_CAP - 60, so that BUF_CAP is in 60..65535 (R7, R8, D2). -/
opaque Config.bufCapAboveMin : Fin 65476

/-- BUF_CAP, the bytes of the wire buffer; 60 <= BUF_CAP <= 65535 (R7, R8). -/
def Config.bufCap : Nat := Config.bufCapAboveMin.val + 60

/-- TCP_LAYER_TAG, the 32-bit value TAG returns (R7, R178, D5). -/
opaque Config.tcpLayerTag : Word

/-- N_UNITS - 1 (R7, D6). -/
opaque Config.extraUnits : Nat

/-- N_UNITS, the number of independent units; at least one (R7). -/
def Config.numUnits : Nat := Config.extraUnits + 1

/-- UNIT_BASE[u], the bus address where the platform puts unit u's window (10_state.md R46, 20_memory.md R68). -/
opaque Config.unitBase : Nat → Nat

end Sys2Proof
end

