-- ==== Sys2Proof/Machine/State.lean ====
section
/-! DEFINITION. The state of the machine (10_state.md): the segment register file, operand bank, wire buffer and host-visible
registers of a unit; the units of the system; the host agent's accesses still to happen; and the reasons a step can stop. -/

namespace Sys2Proof.Machine

/-- A byte array with one defined-bit a byte (10_state.md R41), as (index, byte) pairs with rising indices. A listed index has
Def = 1; an unlisted index has Def = 0 and holds no value, which is what R51 gives every byte after reset (log 1). -/
abbrev Memory := List Host.Cell

/-- The one form a byte array is kept in: strictly rising indices. No entry can equal what an unlisted index reads as, since an
unlisted index reads as no value. -/
abbrev Memory.wf (m : Memory) : Prop := m.Pairwise fun c d => c.1 < d.1

/-- The registers of a segment (the TcpSegment value, 10_state.md R22 to R34). -/
structure Segment where
  /-- R22 -/
  srcPort : Half
  /-- R23 -/
  dstPort : Half
  /-- R24 -/
  seq : Word
  /-- R25 -/
  ack : Word
  /-- R26: data offset 15:12, reserved 11:8, flags 7:0 -/
  ctl : Half
  /-- R29 -/
  window : Half
  /-- R30: whatever value was last put into it; serialization neither reads nor writes it -/
  checksum : Half
  /-- R31 -/
  urgent : Half
  /-- R32: SEG.opt[0..SEG.opt_len-1]; SEG.opt_len is the list's length (log 3) -/
  opt : List Byte
  /-- R33: SEG.pay[0..SEG.pay_len-1]; SEG.pay_len is the list's length (log 3) -/
  pay : List Byte
  /-- R34 -/
  srcAddr : Word
  /-- R34 -/
  dstAddr : Word
  deriving DecidableEq, Repr

/-- The operand bank (10_state.md R37 to R40). Each register has a defined-bit (R41): `some v` is Def = 1 with value v, `none` is
Def = 0, the state R51 gives it after reset (log 1). -/
structure OperandBank where
  srcAddr : Option Word
  dstAddr : Option Word
  srcPort : Option Half
  dstPort : Option Half
  seq : Option Word
  ack : Option Word
  ctl : Option Half
  window : Option Half
  checksum : Option Half
  urgent : Option Half
  /-- R39: any 8-bit value can be stored -/
  optLen : Option Byte
  /-- R40: any 16-bit value can be stored -/
  payLen : Option Half
  /-- IN_OPT, R39 -/
  opt : Memory
  /-- IN_PAY, R40 -/
  pay : Memory
  deriving DecidableEq, Repr

/-- The seven error codes (60_exceptions.md R240, codes 0x01 to 0x07). -/
inductive Cause where
  | bufferTooSmall
  | parseTooShort
  | layoutMismatch
  | noSegment
  | operandUnset
  | illegalOperand
  | illegalCommand
  deriving DecidableEq, Repr

/-- STATUS.CODE: OK or the code a command raised (60_exceptions.md R240). Codes 0x08 to 0xFF are never produced. -/
inductive Code where
  | ok
  | raised (e : Cause)
  deriving DecidableEq, Repr

/-- The whole state of one TCPCODEC unit (10_state.md R20, R50; 60_exceptions.md R257). -/
structure CodecUnit where
  /-- The segment register file; `some` is SEG_VALID = 1, `none` is SEG_VALID = 0, when "the SEG registers hold no value" (R35,
  log 2). -/
  seg : Option Segment
  /-- The operand bank IN (R37 to R40) -/
  inp : OperandBank
  /-- The wire buffer BUF (R36) -/
  buf : Memory
  /-- CSR.BUF_LEN.LEN and its defined-bit (R45, R41) -/
  bufLen : Option Half
  /-- CSR.STATUS.CODE (R43) -/
  code : Code
  /-- CSR.STATUS.ERR_SEEN (R43) -/
  errSeen : Bool
  /-- CSR.RES0 and its defined-bit (R44) -/
  res0 : Option Word
  /-- CSR.RES1 and its defined-bit (R44) -/
  res1 : Option Word
  /-- CSR.RES2 and its defined-bit (R44) -/
  res2 : Option Word
  deriving DecidableEq, Repr

/-- The operand bank after reset: every register and byte undefined (10_state.md R51). -/
def OperandBank.reset : OperandBank :=
  { srcAddr := none, dstAddr := none, srcPort := none, dstPort := none, seq := none, ack := none, ctl := none,
    window := none, checksum := none, urgent := none, optLen := none, payLen := none, opt := [], pay := [] }

/-- A unit after reset (10_state.md R51; 70_reset_and_hazards.md R270, R271). -/
def CodecUnit.reset : CodecUnit :=
  { seg := none, inp := OperandBank.reset, buf := [], bufLen := none, code := .ok, errSeen := false,
    res0 := none, res1 := none, res2 := none }

/-- The width of a host access (10_state.md R47). -/
inductive Width where
  | w8
  | w16
  | w32
  deriving DecidableEq, Repr

/-- One host access at an offset of a unit's window (10_state.md R46, R47). A write of width w carries its value in the low bits of
`data`. -/
inductive Access where
  | read (w : Width) (off : Offset)
  | write (w : Width) (off : Offset) (data : Word)
  deriving DecidableEq, Repr

/-- What can happen to the system from outside: a host access to unit u, or the platform's reset of unit u (00_scope.md R9,
70_reset_and_hazards.md R270). -/
inductive Event where
  | access (u : Nat) (a : Access)
  | reset (u : Nat)
  deriving DecidableEq, Repr

/-- What a host read returns: the bus value, or ⊥ where something it covers is undefined (10_state.md R41, D35, U17). -/
inductive ReadReply where
  | value (v : Word)
  | undefined
  deriving DecidableEq, Repr

/-- The system: the unit being accessed, the other units, and the host agent (00_scope.md R9). -/
structure State where
  /-- The unit of index `sel`, the one the current host access addresses. -/
  unit : CodecUnit
  /-- Which unit `unit` is (the model's own field, log 5). -/
  sel : Nat
  /-- The units other than `sel` whose state is not the reset state, by rising index (the model's own field, log 5). -/
  parked : List (Nat × CodecUnit)
  /-- The accesses and resets still to happen, in the order they happen (20_memory.md R70; the model's own field, log 6). -/
  pending : List Event
  /-- What the host's most recent read returned; `none` until it has read (the model's own field, log 8). -/
  lastRead : Option ReadReply
  deriving DecidableEq, Repr

/-- The system right after reset: every unit in its reset state, nothing pending, nothing read (10_state.md R51,
70_reset_and_hazards.md R270, R272). -/
def State.reset : State :=
  { unit := CodecUnit.reset, sel := 0, parked := [], pending := [], lastRead := none }

/-- Why the machine is stuck. No command raises one of these: a failing command ends with a status code in a next state. -/
inductive Fault where
  /-- Raised by a host access to an offset the map leaves unmapped (10_state.md R46, R47). The spec: the host is stuck. Safe. -/
  | hostUnmapped (off : Offset)
  /-- Raised by a host access of another width or alignment than its place allows (10_state.md R47, 20_memory.md R62). Safe. -/
  | hostWidthOrAlignment (off : Offset)
  /-- Raised by a host access whose bytes are not all inside one array (10_state.md R47). Safe. -/
  | hostCrossesArray (off : Offset)
  /-- Raised by an access or reset addressed to a unit u >= N_UNITS, which does not exist (00_scope.md R7, log 5). Safe. -/
  | noSuchUnit (u : Nat)
  deriving DecidableEq, Repr

/-- Why an instruction has no meaning in this model. -/
inductive Refusal where
  /-- Raised by exec for an instruction that has no meaning yet; no arm does so. Safe. -/
  | notModelled (mnemonic : String)
  deriving DecidableEq, Repr

/-- The outcome of a step of this machine. -/
abbrev Result := Host.Outcome State Fault Refusal

end Sys2Proof.Machine
end

