-- ==== Sys2Proof/Machine/Ops.lean ====
section
/-! DEFINITION. The named operations: byte arrays and their big-endian accesses, the status codes and STATUS word, raising a code
and completing a command, the named register updates, and choosing the unit an access addresses. -/

namespace Sys2Proof.Machine

/-! Lists of (key, value) pairs by rising key -/

/-- The value listed at key k. -/
def assocGet {α : Type} (k : Nat) : List (Nat × α) → Option α
  | [] => none
  | c :: rest => if c.1 = k then some c.2 else assocGet k rest

/-- List v at key k, in place of what was listed there, keeping rising keys. -/
def assocPut {α : Type} (k : Nat) (v : α) : List (Nat × α) → List (Nat × α)
  | [] => [(k, v)]
  | c :: rest =>
    if k < c.1 then (k, v) :: c :: rest
    else if k = c.1 then (k, v) :: rest
    else c :: assocPut k v rest

/-- Remove what is listed at key k. -/
def assocDrop {α : Type} (k : Nat) : List (Nat × α) → List (Nat × α)
  | [] => []
  | c :: rest => if c.1 = k then rest else c :: assocDrop k rest

/-! Byte arrays -/

/-- Byte a of the array, or no value where Def = 0 (10_state.md R41). -/
def Memory.read (m : Memory) (a : Nat) : Option Byte := assocGet a m

/-- Write byte a, which sets its defined-bit (10_state.md R41). -/
def Memory.write (m : Memory) (a : Nat) (b : Byte) : Memory := assocPut a b m

/-- The n bytes from a on, or no value if one of them is undefined. -/
def Memory.readBytes (m : Memory) (a : Nat) : Nat → Option (List Byte)
  | 0 => some []
  | n + 1 =>
    match m.read a, Memory.readBytes m (a + 1) n with
    | some b, some bs => some (b :: bs)
    | _, _ => none

/-- Write consecutive bytes from a on, the first at the lowest index. -/
def Memory.writeBytes (m : Memory) (a : Nat) : List Byte → Memory
  | [] => m
  | b :: bs => Memory.writeBytes (m.write a b) (a + 1) bs

/-! Big-endian byte order (20_memory.md R60) -/

/-- The two bytes of a 16-bit value, most significant first. -/
def bytes16 (v : Half) : List Byte := [v.extractLsb' 8 8, v.extractLsb' 0 8]

/-- The four bytes of a 32-bit value, most significant first. -/
def bytes32 (v : Word) : List Byte :=
  [v.extractLsb' 24 8, v.extractLsb' 16 8, v.extractLsb' 8 8, v.extractLsb' 0 8]

/-- Byte i of a byte string; the callers stay inside it. -/
def byteAt (bs : List Byte) (i : Nat) : Byte := bs.getD i 0

/-- The 16-bit value at offset i of a byte string: bs[i] ++ bs[i+1]. -/
def be16 (bs : List Byte) (i : Nat) : Half := byteAt bs i ++ byteAt bs (i + 1)

/-- The 32-bit value at offset i of a byte string: bs[i] ++ bs[i+1] ++ bs[i+2] ++ bs[i+3]. -/
def be32 (bs : List Byte) (i : Nat) : Word :=
  byteAt bs i ++ byteAt bs (i + 1) ++ byteAt bs (i + 2) ++ byteAt bs (i + 3)

/-! Status codes and STATUS -/

/-- The numbers of the error codes (60_exceptions.md R240). -/
def causeByte : Cause → Byte
  | .bufferTooSmall => 0x01
  | .parseTooShort => 0x02
  | .layoutMismatch => 0x03
  | .noSegment => 0x04
  | .operandUnset => 0x05
  | .illegalOperand => 0x06
  | .illegalCommand => 0x07

/-- STATUS.CODE as a number; OK is 0x00 (60_exceptions.md R240). -/
def codeByte : Code → Byte
  | .ok => 0x00
  | .raised e => causeByte e

/-- SEG_VALID (10_state.md R35). -/
def segValid (u : CodecUnit) : Bool := u.seg.isSome

/-- CSR.STATUS: bits 31:16 zero, ERR_SEEN at 15, 14:9 zero, the SEG_VALID mirror at 8, CODE at 7:0 (10_state.md R43). -/
def statusWord (u : CodecUnit) : Word :=
  (0 : BitVec 16) ++ BitVec.ofBool u.errSeen ++ (0 : BitVec 6) ++ BitVec.ofBool (segValid u) ++ codeByte u.code

/-! Named register updates -/

/-- Write CSR.RES0, which sets its defined-bit (10_state.md R44). -/
def setRes0 (v : Word) (u : CodecUnit) : CodecUnit := { u with res0 := some v }

/-- Load the segment register file and set SEG_VALID (10_state.md R35). -/
def loadSegment (g : Segment) (u : CodecUnit) : CodecUnit := { u with seg := some g }

/-- STATUS.CODE <- OK; ERR_SEEN stays as it was (60_exceptions.md R243). -/
def markOk (u : CodecUnit) : CodecUnit := { u with code := .ok }

/-- Replace the state of the unit being accessed. -/
def State.setUnit (s : State) (u : CodecUnit) : State := { s with unit := u }

/-! Raising a code and completing a command. This is the block's whole exception mechanism: a raised code saves no state and
transfers control nowhere (60_exceptions.md R250), and there is no return from it: the next CMD write runs normally (R251). -/

/-- `raise E`: STATUS.CODE <- E, STATUS.ERR_SEEN <- 1, nothing else (60_exceptions.md R243). -/
def raise (e : Cause) (u : CodecUnit) : CodecUnit := { u with code := .raised e, errSeen := true }

/-- A command's pseudocode: its checks in order, then either the code it raises or the unit with all its writes but STATUS.CODE
(00_scope.md R14, R16). -/
abbrev Command := CodecUnit → Except Cause CodecUnit

/-- Run a command on the unit being accessed: its writes and CODE <- OK, or `raise` on the unit as it was (60_exceptions.md R242,
R243). -/
def complete (c : Command) (s : State) : Result :=
  .next (s.setUnit
    (match c s.unit with
     | .ok u => markOk u
     | .error e => raise e s.unit))

/-- A command that needs the segment: NO_SEGMENT when SEG_VALID = 0 (10_state.md R35, 60_exceptions.md R244). -/
def needSegment (k : Segment → Command) : Command := fun u =>
  match u.seg with
  | none => .error .noSegment
  | some g => k g u

/-- A query: needs the segment, writes its result to RES0 and nothing else (43_accessors.md, 42_serialize.md R176, R178). -/
def query (f : Segment → Word) : Command := needSegment fun g u => .ok (setRes0 (f g) u)

/-- The outcome of a command word that is no command (30_encoding.md R84, 60_exceptions.md R245). -/
def raiseIllegalCommand (s : State) : Result := complete (fun _ => .error .illegalCommand) s

/-! Units -/

/-- The state of a unit that is not being accessed; a unit not listed is in its reset state (log 5). -/
def parkedUnit (l : List (Nat × CodecUnit)) (u : Nat) : CodecUnit := (assocGet u l).getD CodecUnit.reset

/-- Keep unit u's state aside; a unit in its reset state is not listed. -/
def parkUnit (u : Nat) (x : CodecUnit) (l : List (Nat × CodecUnit)) : List (Nat × CodecUnit) :=
  if x = CodecUnit.reset then assocDrop u l else assocPut u x l

/-- The state of unit u, wherever it is held (60_exceptions.md R257). -/
def State.unitAt (s : State) (u : Nat) : CodecUnit := if u = s.sel then s.unit else parkedUnit s.parked u

/-- Turn to unit u; no unit's state changes. No such unit for u >= N_UNITS (00_scope.md R7). -/
def selectUnit (u : Nat) (s : State) : Option State :=
  if u = s.sel then some s
  else if u < Config.numUnits then
    some { s with unit := parkedUnit s.parked u, sel := u,
                  parked := parkUnit s.sel s.unit (assocDrop u s.parked) }
  else none

end Sys2Proof.Machine
end

