-- ==== Sys2Proof/Machine/Flags.lean ====
section
/-! DEFINITION. The flags sub-field of the offset/reserved/flags word: the word's packing (00_scope.md R15, 30_encoding.md R101) and
the flag positions (R102). -/

namespace Sys2Proof.Machine

/-- do(c) = c[15:12], the data offset (00_scope.md R15). -/
def dataOffset (c : Half) : BitVec 4 := c.extractLsb' 12 4

/-- rsv(c) = c[11:8], the reserved field (00_scope.md R15). -/
def reservedBits (c : Half) : BitVec 4 := c.extractLsb' 8 4

/-- flg(c) = c[7:0], the flags (00_scope.md R15). -/
def flagBits (c : Half) : Byte := c.extractLsb' 0 8

/-- ctl(d, r, f) = d ++ r ++ f (00_scope.md R15). -/
def packCtl (d r : BitVec 4) (f : Byte) : Half := d ++ r ++ f

/-- The eight TCP flags (10_state.md R28). -/
inductive TcpFlag where
  | fin
  | syn
  | rst
  | psh
  | ack
  | urg
  | ece
  | cwr
  deriving DecidableEq, Repr

/-- The bit that carries a flag in flg(SEG.ctl), as in wire byte 13 (30_encoding.md R102, 10_state.md R28). -/
def flagPos : TcpFlag → Nat
  | .fin => 0
  | .syn => 1
  | .rst => 2
  | .psh => 3
  | .ack => 4
  | .urg => 5
  | .ece => 6
  | .cwr => 7

/-- Whether a flag is set in an offset/reserved/flags word: SEG.ctl[pos] (43_accessors.md R210 to R214). -/
def flagSet (f : TcpFlag) (c : Half) : Bool := c.getLsbD (flagPos f)

/-- The flags byte with exactly the given flags set. -/
def flagsOf : List TcpFlag → Byte
  | [] => 0
  | f :: rest => (1 : Byte) <<< flagPos f ||| flagsOf rest

/-- A predicate's result: 1 or 0, zero-extended to 32 bits (43_accessors.md, section 2). -/
def boolWord (b : Bool) : Word := (BitVec.ofBool b).setWidth 32

/-- ch(b, letter): the letter when the flag is set, '.' (0x2E) when clear (44_diagnostic.md R230, R232). -/
def flagChar (b : Bool) (letter : Byte) : Byte := if b then letter else 0x2E

/-- The four-character summary A R S F, first character in bits 31:24 (44_diagnostic.md R230 to R232). -/
def flagSummary (c : Half) : Word :=
  flagChar (flagSet .ack c) 0x41 ++ flagChar (flagSet .rst c) 0x52 ++
    flagChar (flagSet .syn c) 0x53 ++ flagChar (flagSet .fin c) 0x46

end Sys2Proof.Machine
end

