-- ==== Sys2Proof/Machine/Operands.lean ====
section
/-! DEFINITION. The operand forms: the scalar operands of the constructors, the header operands of FROM_HEADER, the options and
payload operands, the capacity operand, and a segment's fields by selector. -/

namespace Sys2Proof.Machine

/-- A scalar operand: OPERAND_UNSET when its defined-bit is 0 (10_state.md R41). -/
def scalarOperand {α : Type} (r : Option α) : Except Cause α :=
  match r with
  | none => .error .operandUnset
  | some v => .ok v

/-- The six operands of NEW_ACK, NEW_ACK_SYN and NEW_RST (40_construction.md R120). -/
structure ControlOperands where
  srcAddr : Word
  dstAddr : Word
  srcPort : Half
  dstPort : Half
  seq : Word
  ack : Word
  deriving DecidableEq, Repr

/-- The six scalars, all defined, or nothing (40_construction.md R120). -/
def controlOperands (b : OperandBank) : Option ControlOperands := do
  let srcAddr ← b.srcAddr
  let dstAddr ← b.dstAddr
  let srcPort ← b.srcPort
  let dstPort ← b.dstPort
  let seq ← b.seq
  let ack ← b.ack
  pure { srcAddr, dstAddr, srcPort, dstPort, seq, ack }

/-- The twelve scalar operands of FROM_HEADER (40_construction.md R124). -/
structure HeaderOperands where
  control : ControlOperands
  ctl : Half
  window : Half
  checksum : Half
  urgent : Half
  optLen : Byte
  payLen : Half
  deriving DecidableEq, Repr

/-- The twelve scalars, all defined, or nothing (40_construction.md R124). -/
def headerOperands (b : OperandBank) : Option HeaderOperands := do
  let control ← controlOperands b
  let ctl ← b.ctl
  let window ← b.window
  let checksum ← b.checksum
  let urgent ← b.urgent
  let optLen ← b.optLen
  let payLen ← b.payLen
  pure { control, ctl, window, checksum, urgent, optLen, payLen }

/-- The options operand: IN.opt_len set, at most OPT_MAX, and every byte of IN_OPT below it set, in that order
(40_construction.md R129). -/
def optionsOperand (b : OperandBank) : Except Cause (List Byte) :=
  match b.optLen with
  | none => .error .operandUnset
  | some n =>
    if Config.optMax < n.toNat then .error .illegalOperand
    else scalarOperand (b.opt.readBytes 0 n.toNat)

/-- The payload operand: IN.pay_len set, at most PAYLOAD_MAX, and every byte of IN_PAY below it set, in that order
(40_construction.md R130). -/
def payloadOperand (b : OperandBank) : Except Cause (List Byte) :=
  match b.payLen with
  | none => .error .operandUnset
  | some n =>
    if Config.payloadMax < n.toNat then .error .illegalOperand
    else scalarOperand (b.pay.readBytes 0 n.toNat)

/-- The capacity CSR.BUF_LEN.LEN: set, and at most BUF_CAP, in that order (42_serialize.md R166, R172). -/
def capacityOperand (u : CodecUnit) : Except Cause Nat :=
  match u.bufLen with
  | none => .error .operandUnset
  | some n => if Config.bufCap < n.toNat then .error .illegalOperand else .ok n.toNat

/-- pad4(n), the least multiple of 4 that is >= n (00_scope.md R15). -/
def pad4 (n : Nat) : Nat := 4 * ((n + 3) / 4)

/-- hdr_actual = 20 + pad4(SEG.opt_len), the header bytes the current options need (00_scope.md R15). -/
def hdrActual (g : Segment) : Nat := 20 + pad4 g.opt.length

/-- 4*do(SEG.ctl), the header bytes the stored data offset states (30_encoding.md R103). -/
def hdrStored (g : Segment) : Nat := 4 * (dataOffset g.ctl).toNat

/-- A consistent layout: 4*do(SEG.ctl) = hdr_actual (30_encoding.md R103). -/
abbrev ConsistentLayout (g : Segment) : Prop := hdrStored g = hdrActual g

/-- The total wire size from the stored data offset (42_serialize.md R176). -/
def wireSize (g : Segment) : Nat := hdrStored g + g.pay.length

/-- The 32-bit result of a field by its selector: the field zero-extended, or the length for options and payload
(43_accessors.md R207, R208, R209). The reserved selectors name no field. -/
def fieldWord (f : Fid) (g : Segment) : Option Word :=
  match f with
  | .srcPort => some (g.srcPort.setWidth 32)
  | .dstPort => some (g.dstPort.setWidth 32)
  | .seq => some g.seq
  | .ack => some g.ack
  | .dataOffset => some ((dataOffset g.ctl).setWidth 32)
  | .reserved => some ((reservedBits g.ctl).setWidth 32)
  | .flags => some ((flagBits g.ctl).setWidth 32)
  | .window => some (g.window.setWidth 32)
  | .checksum => some (g.checksum.setWidth 32)
  | .urgent => some (g.urgent.setWidth 32)
  | .options => some (BitVec.ofNat 32 g.opt.length)
  | .payload => some (BitVec.ofNat 32 g.pay.length)
  | .srcAddr => some g.srcAddr
  | .dstAddr => some g.dstAddr
  | .illegal14 => none
  | .illegal15 => none

/-- The segment with the field of a selector replaced by the operand the selector names, or the code that operand raises
(30_encoding.md R83; 40_construction.md R127 to R130). The reserved selectors are ILLEGAL_COMMAND (30_encoding.md R84). -/
def replaceField (f : Fid) (b : OperandBank) (g : Segment) : Except Cause Segment :=
  match f with
  | .srcPort => (scalarOperand b.srcPort).map fun v => { g with srcPort := v }
  | .dstPort => (scalarOperand b.dstPort).map fun v => { g with dstPort := v }
  | .seq => (scalarOperand b.seq).map fun v => { g with seq := v }
  | .ack => (scalarOperand b.ack).map fun v => { g with ack := v }
  | .dataOffset =>
    (scalarOperand b.ctl).map fun c => { g with ctl := packCtl (dataOffset c) (reservedBits g.ctl) (flagBits g.ctl) }
  | .reserved =>
    (scalarOperand b.ctl).map fun c => { g with ctl := packCtl (dataOffset g.ctl) (reservedBits c) (flagBits g.ctl) }
  | .flags =>
    (scalarOperand b.ctl).map fun c => { g with ctl := packCtl (dataOffset g.ctl) (reservedBits g.ctl) (flagBits c) }
  | .window => (scalarOperand b.window).map fun v => { g with window := v }
  | .checksum => (scalarOperand b.checksum).map fun v => { g with checksum := v }
  | .urgent => (scalarOperand b.urgent).map fun v => { g with urgent := v }
  | .options => (optionsOperand b).map fun bs => { g with opt := bs }
  | .payload => (payloadOperand b).map fun bs => { g with pay := bs }
  | .srcAddr => (scalarOperand b.srcAddr).map fun v => { g with srcAddr := v }
  | .dstAddr => (scalarOperand b.dstAddr).map fun v => { g with dstAddr := v }
  | .illegal14 => .error .illegalCommand
  | .illegal15 => .error .illegalCommand

end Sys2Proof.Machine
end

