-- ==== Sys2Proof/Machine/Accessors.lean ====
section
/-! DEFINITION. The field readers, GET_FIELD and the flag predicates (43_accessors.md). -/

namespace Sys2Proof.Machine

/-- GET_SRC_PORT (43_accessors.md R200). -/
def execGetSrcPort (s : State) : Result := complete (query fun g => g.srcPort.setWidth 32) s

/-- GET_DST_PORT (43_accessors.md R201). -/
def execGetDstPort (s : State) : Result := complete (query fun g => g.dstPort.setWidth 32) s

/-- GET_SEQ (43_accessors.md R202). -/
def execGetSeq (s : State) : Result := complete (query fun g => g.seq) s

/-- GET_ACK (43_accessors.md R203). -/
def execGetAck (s : State) : Result := complete (query fun g => g.ack) s

/-- GET_SRC_ADDR (43_accessors.md R204). -/
def execGetSrcAddr (s : State) : Result := complete (query fun g => g.srcAddr) s

/-- GET_DST_ADDR (43_accessors.md R205). -/
def execGetDstAddr (s : State) : Result := complete (query fun g => g.dstAddr) s

/-- The copy of options or payload into the operand bank that GET_FIELD with FID 10 or 11 makes; no other selector writes the bank
(43_accessors.md R209). -/
def copyOut (f : Fid) (g : Segment) (b : OperandBank) : OperandBank :=
  match f with
  | .options => { b with opt := b.opt.writeBytes 0 g.opt, optLen := some (BitVec.ofNat 8 g.opt.length) }
  | .payload => { b with pay := b.pay.writeBytes 0 g.pay, payLen := some (BitVec.ofNat 16 g.pay.length) }
  | .srcPort | .dstPort | .seq | .ack => b
  | .dataOffset | .reserved | .flags => b
  | .window | .checksum | .urgent => b
  | .srcAddr | .dstAddr => b
  | .illegal14 | .illegal15 => b

/-- GET_FIELD's pseudocode (43_accessors.md R206): an illegal selector before anything else, then NO_SEGMENT, then the field. -/
def getFieldCommand (f : Fid) : Command := fun u =>
  if f.legal then
    needSegment (fun g u =>
      match fieldWord f g with
      | none => .error .illegalCommand
      | some v => .ok (setRes0 v { u with inp := copyOut f g u.inp })) u
  else .error .illegalCommand

/-- GET_FIELD (43_accessors.md R206 to R209). -/
def execGetField (f : Fid) (s : State) : Result := complete (getFieldCommand f) s

/-- IS_ACK (43_accessors.md R210). -/
def execIsAck (s : State) : Result := complete (query fun g => boolWord (flagSet .ack g.ctl)) s

/-- IS_RST (43_accessors.md R211). -/
def execIsRst (s : State) : Result := complete (query fun g => boolWord (flagSet .rst g.ctl)) s

/-- IS_SYN (43_accessors.md R212). -/
def execIsSyn (s : State) : Result := complete (query fun g => boolWord (flagSet .syn g.ctl)) s

/-- IS_FIN (43_accessors.md R213). -/
def execIsFin (s : State) : Result := complete (query fun g => boolWord (flagSet .fin g.ctl)) s

/-- IS_RST_OR_FIN (43_accessors.md R214). -/
def execIsRstOrFin (s : State) : Result :=
  complete (query fun g => boolWord (flagSet .rst g.ctl || flagSet .fin g.ctl)) s

end Sys2Proof.Machine
end

