-- ==== Sys2Proof/Machine/Construct.lean ====
section
/-! DEFINITION. NEW_ACK, NEW_ACK_SYN, NEW_RST, FROM_HEADER and SET_FIELD (40_construction.md). -/

namespace Sys2Proof.Machine

/-- The fixed-format control segment with the given flags (40_construction.md R120, R123). -/
def controlSegment (flags : Byte) (o : ControlOperands) : Segment :=
  { srcAddr := o.srcAddr, dstAddr := o.dstAddr, srcPort := o.srcPort, dstPort := o.dstPort, seq := o.seq, ack := o.ack,
    ctl := packCtl 5 0 flags, window := 0xFFFF, checksum := 0x0000, urgent := 0x0000, opt := [], pay := [] }

/-- A control-segment constructor (40_construction.md R120 to R123). -/
def newControl (flags : Byte) : Command := fun u =>
  match controlOperands u.inp with
  | none => .error .operandUnset
  | some o => .ok (loadSegment (controlSegment flags o) u)

/-- The segment FROM_HEADER loads: every operand verbatim (40_construction.md R124, R125). -/
def headerSegment (h : HeaderOperands) (opt pay : List Byte) : Segment :=
  { srcAddr := h.control.srcAddr, dstAddr := h.control.dstAddr, srcPort := h.control.srcPort, dstPort := h.control.dstPort,
    seq := h.control.seq, ack := h.control.ack, ctl := h.ctl, window := h.window, checksum := h.checksum, urgent := h.urgent,
    opt := opt, pay := pay }

/-- FROM_HEADER's pseudocode (40_construction.md R124). -/
def fromHeaderCommand : Command := fun u =>
  match headerOperands u.inp with
  | none => .error .operandUnset
  | some h =>
    if Config.optMax < h.optLen.toNat ∨ Config.payloadMax < h.payLen.toNat then .error .illegalOperand
    else
      match u.inp.opt.readBytes 0 h.optLen.toNat, u.inp.pay.readBytes 0 h.payLen.toNat with
      | some opt, some pay => .ok (loadSegment (headerSegment h opt pay) u)
      | _, _ => .error .operandUnset

/-- SET_FIELD's pseudocode (40_construction.md R126): an illegal selector before anything else, then NO_SEGMENT, then the operand. -/
def setFieldCommand (f : Fid) : Command := fun u =>
  if f.legal then
    needSegment (fun g u => (replaceField f u.inp g).map fun g' => loadSegment g' u) u
  else .error .illegalCommand

/-- NEW_ACK (40_construction.md R120): flags ACK. -/
def execNewAck (s : State) : Result := complete (newControl (flagsOf [.ack])) s

/-- NEW_ACK_SYN (40_construction.md R121): flags ACK | SYN. -/
def execNewAckSyn (s : State) : Result := complete (newControl (flagsOf [.ack, .syn])) s

/-- NEW_RST (40_construction.md R122): flags RST only. -/
def execNewRst (s : State) : Result := complete (newControl (flagsOf [.rst])) s

/-- FROM_HEADER (40_construction.md R124, R125). -/
def execFromHeader (s : State) : Result := complete fromHeaderCommand s

/-- SET_FIELD (40_construction.md R126 to R130). -/
def execSetField (f : Fid) (s : State) : Result := complete (setFieldCommand f) s

end Sys2Proof.Machine
end

