-- ==== Sys2Proof/Machine/Diagnostic.lean ====
section
/-! DEFINITION. FORMAT (44_diagnostic.md). -/

namespace Sys2Proof.Machine

/-- FORMAT's pseudocode: RES0 the flag summary, RES1 the ports, RES2 the layer tag (44_diagnostic.md R230). -/
def formatCommand : Command :=
  needSegment fun g u =>
    .ok { u with res0 := some (flagSummary g.ctl), res1 := some (g.srcPort ++ g.dstPort), res2 := some Config.tcpLayerTag }

/-- FORMAT (44_diagnostic.md R230 to R233). -/
def execFormat (s : State) : Result := complete formatCommand s

end Sys2Proof.Machine
end

