-- ==== Sys2Proof/Machine/Parse.lean ====
section
/-! DEFINITION. PARSE (41_parse.md). -/

namespace Sys2Proof.Machine

/-- The segment PARSE loads from the 20 fixed header bytes and the option bytes, with an empty payload (30_encoding.md R100, R101;
41_parse.md R140 to R143). -/
def parsedSegment (sa da : Word) (hdr opt : List Byte) : Segment :=
  { srcPort := be16 hdr 0, dstPort := be16 hdr 2, seq := be32 hdr 4, ack := be32 hdr 8, ctl := be16 hdr 12,
    window := be16 hdr 14, checksum := be16 hdr 16, urgent := be16 hdr 18, opt := opt, pay := [], srcAddr := sa, dstAddr := da }

/-- h = 4*d, the declared header length, from wire byte 12 (41_parse.md R140, 30_encoding.md R105). -/
def declaredHeader (hdr : List Byte) : Nat := 4 * ((byteAt hdr 12).extractLsb' 4 4).toNat

/-- ol, the options bytes: h - 20 when h > 20, else none (41_parse.md R143). -/
def optionsBytes (h : Nat) : Nat := if 20 < h then h - 20 else 0

/-- PARSE's pseudocode (41_parse.md R140): its six checks in order, then the segment and the header bytes consumed (R146). -/
def parseCommand : Command := fun u =>
  match u.bufLen, u.inp.srcAddr, u.inp.dstAddr with
  | some len, some sa, some da =>
    if Config.bufCap < len.toNat then .error .illegalOperand
    else if len.toNat < 20 then .error .parseTooShort
    else
      match u.buf.readBytes 0 20 with
      | none => .error .operandUnset
      | some hdr =>
        if len.toNat < declaredHeader hdr then .error .parseTooShort
        else
          match u.buf.readBytes 20 (optionsBytes (declaredHeader hdr)) with
          | none => .error .operandUnset
          | some opt =>
            .ok (setRes0 (BitVec.ofNat 32 (max 20 (declaredHeader hdr)))
              (loadSegment (parsedSegment sa da hdr opt) u))
  | _, _, _ => .error .operandUnset

/-- PARSE (41_parse.md R140 to R146). -/
def execParse (s : State) : Result := complete parseCommand s

end Sys2Proof.Machine
end

