-- ==== Sys2Proof/Machine/Checksum.lean ====
section
/-! DEFINITION. The internet-checksum engine (42_serialize.md R160 to R163). It has no state and no command of its own. -/

namespace Sys2Proof.Machine

/-- sum16: the sum of the 16-bit big-endian words of a byte string, not reduced (42_serialize.md R160); an odd last byte is the high
byte of a word whose low byte is 0x00 (R161). -/
def sum16 : List Byte → Nat
  | [] => 0
  | [hi] => (hi ++ (0 : Byte)).toNat
  | hi :: lo :: rest => (hi ++ lo).toNat + sum16 rest

/-- The loop of fold16 with a bound on its rounds: while s > 0xFFFF, s := s[15:0] + (s >> 16) (42_serialize.md R163). -/
def foldRounds : Nat → Nat → Nat
  | 0, s => s
  | n + 1, s => if 0xFFFF < s then foldRounds n (s % 0x10000 + s / 0x10000) else s

/-- fold16, the end-around carry (42_serialize.md R163). Each round lowers a sum above 0xFFFF, so s rounds are enough (log 12). -/
def fold16 (s : Nat) : Half := BitVec.ofNat 16 (foldRounds s s)

/-- The 12-byte IPv4 pseudo-header for a segment of len bytes (30_encoding.md R104). -/
def pseudoHeader (sa da : Word) (len : Nat) : List Byte :=
  bytes32 sa ++ bytes32 da ++ [0x00, 0x06] ++ bytes16 (BitVec.ofNat 16 len)

/-- The segment's bytes with the checksum field counted as zero (42_serialize.md R162). -/
def zeroChecksum (bs : List Byte) : List Byte := (bs.set 16 0x00).set 17 0x00

/-- tcp_checksum over the pseudo-header and the bytes of a serialized segment (42_serialize.md R162, R163). -/
def tcpChecksum (sa da : Word) (bs : List Byte) : Half :=
  ~~~ fold16 (sum16 (pseudoHeader sa da bs.length ++ zeroChecksum bs))

end Sys2Proof.Machine
end

