-- ==== Sys2Proof/Machine/Serialize.lean ====
section
/-! DEFINITION. SERIALIZE, SERIALIZE_FIXUP, GET_SIZE and TAG (42_serialize.md). -/

namespace Sys2Proof.Machine

/-- The 20 fixed header bytes with data offset dw and checksum ck, in the order of 42_serialize.md R167 (30_encoding.md R100). -/
def headerBytes (g : Segment) (dw : BitVec 4) (ck : Half) : List Byte :=
  bytes16 g.srcPort ++ bytes16 g.dstPort ++ bytes32 g.seq ++ bytes32 g.ack ++
    bytes16 (packCtl dw (reservedBits g.ctl) (flagBits g.ctl)) ++ bytes16 g.window ++ bytes16 ck ++ bytes16 g.urgent

/-- The whole segment on the wire: header, options, padding 0x00 up to 4*dw bytes, payload (42_serialize.md R167, 30_encoding.md
R103). -/
def segmentBytes (g : Segment) (dw : BitVec 4) (ck : Half) : List Byte :=
  headerBytes g dw ck ++ g.opt ++ List.replicate (4 * dw.toNat - 20 - g.opt.length) 0x00 ++ g.pay

/-- The checksum of the segment's bytes, the placeholder counted as zero (42_serialize.md R168). -/
def segmentChecksum (g : Segment) (dw : BitVec 4) : Half :=
  tcpChecksum g.srcAddr g.dstAddr (segmentBytes g dw 0x0000)

/-- The bytes a serialization leaves in BUF: the segment with its checksum inserted (42_serialize.md R167, R168). -/
def serializedBytes (g : Segment) (dw : BitVec 4) : List Byte := segmentBytes g dw (segmentChecksum g dw)

/-- emit(dw) and the byte count L = 4*dw + SEG.pay_len to RES0 (42_serialize.md R167, R171). Only the final bytes of the atomic
command are observable, so they are stored once (log 11). -/
def emit (g : Segment) (dw : BitVec 4) (u : CodecUnit) : CodecUnit :=
  setRes0 (BitVec.ofNat 32 (4 * dw.toNat + g.pay.length))
    { u with buf := u.buf.writeBytes 0 (serializedBytes g dw) }

/-- dfx = hdr_actual / 4 (42_serialize.md R172, R173). -/
def fixupOffset (g : Segment) : Nat := hdrActual g / 4

/-- The fixed-up total size 4*dfx + SEG.pay_len (42_serialize.md R174). -/
def fixupSize (g : Segment) : Nat := 4 * fixupOffset g + g.pay.length

/-- SERIALIZE's pseudocode (42_serialize.md R166). -/
def serializeCommand : Command :=
  needSegment fun g u =>
    match capacityOperand u with
    | .error e => .error e
    | .ok cap =>
      if cap < wireSize g then .error .bufferTooSmall
      else if hdrStored g ≠ hdrActual g then .error .layoutMismatch
      else .ok (emit g (dataOffset g.ctl) u)

/-- SERIALIZE_FIXUP's pseudocode (42_serialize.md R172). -/
def serializeFixupCommand : Command :=
  needSegment fun g u =>
    match capacityOperand u with
    | .error e => .error e
    | .ok cap =>
      if cap < fixupSize g then .error .bufferTooSmall
      else .ok (emit g (BitVec.ofNat 4 (fixupOffset g)) u)

/-- SERIALIZE (42_serialize.md R166). -/
def execSerialize (s : State) : Result := complete serializeCommand s

/-- SERIALIZE_FIXUP (42_serialize.md R172). -/
def execSerializeFixup (s : State) : Result := complete serializeFixupCommand s

/-- GET_SIZE (42_serialize.md R176). -/
def execGetSize (s : State) : Result := complete (query fun g => BitVec.ofNat 32 (wireSize g)) s

/-- TAG (42_serialize.md R178). -/
def execTag (s : State) : Result := complete (query fun _ => Config.tcpLayerTag) s

end Sys2Proof.Machine
end

