-- ==== Sys2Proof/Machine/Dispatch.lean ====
section
/-! DEFINITION. exec: one arm per command, each one call of its meaning. -/

namespace Sys2Proof.Machine

def exec (i : Instr) (s : State) : Host.Outcome State Fault Refusal :=
  match i with
  | .newAck => Sys2Proof.Machine.execNewAck s
  | .newAckSyn => Sys2Proof.Machine.execNewAckSyn s
  | .newRst => Sys2Proof.Machine.execNewRst s
  | .fromHeader => Sys2Proof.Machine.execFromHeader s
  | .setField f => Sys2Proof.Machine.execSetField f s
  | .parse => Sys2Proof.Machine.execParse s
  | .serialize => Sys2Proof.Machine.execSerialize s
  | .serializeFixup => Sys2Proof.Machine.execSerializeFixup s
  | .getSize => Sys2Proof.Machine.execGetSize s
  | .tag => Sys2Proof.Machine.execTag s
  | .getSrcPort => Sys2Proof.Machine.execGetSrcPort s
  | .getDstPort => Sys2Proof.Machine.execGetDstPort s
  | .getSeq => Sys2Proof.Machine.execGetSeq s
  | .getAck => Sys2Proof.Machine.execGetAck s
  | .getSrcAddr => Sys2Proof.Machine.execGetSrcAddr s
  | .getDstAddr => Sys2Proof.Machine.execGetDstAddr s
  | .getField f => Sys2Proof.Machine.execGetField f s
  | .isAck => Sys2Proof.Machine.execIsAck s
  | .isRst => Sys2Proof.Machine.execIsRst s
  | .isSyn => Sys2Proof.Machine.execIsSyn s
  | .isFin => Sys2Proof.Machine.execIsFin s
  | .isRstOrFin => Sys2Proof.Machine.execIsRstOrFin s
  | .format => Sys2Proof.Machine.execFormat s

end Sys2Proof.Machine
end

