-- ==== Sys2Proof/Machine/HostBus.lean ====
section
/-! DEFINITION. The host interface of one unit: the address map (10_state.md R46), the access rules (R47, R48, 20_memory.md R61,
R62), and what a read returns and a write stores. -/

namespace Sys2Proof.Machine

/-- The host-visible registers (10_state.md R46). -/
inductive HostReg where
  | cmd
  | status
  | res0
  | res1
  | res2
  | bufLen
  | inSrcAddr
  | inDstAddr
  | inSrcPort
  | inDstPort
  | inSeq
  | inAck
  | inCtl
  | inWindow
  | inChecksum
  | inUrgent
  | inOptLen
  | inPayLen
  deriving DecidableEq, Repr

/-- The host-visible byte arrays (10_state.md R46). -/
inductive HostArray where
  | inOpt
  | inPay
  | buf
  deriving DecidableEq, Repr

/-- The register at word k of the register space, offset 4*k (10_state.md R46). -/
def hostRegAt (k : Nat) : Option HostReg :=
  match k with
  | 0 => some .cmd
  | 1 => some .status
  | 2 => some .res0
  | 3 => some .res1
  | 4 => some .res2
  | 5 => some .bufLen
  | 8 => some .inSrcAddr
  | 9 => some .inDstAddr
  | 10 => some .inSrcPort
  | 11 => some .inDstPort
  | 12 => some .inSeq
  | 13 => some .inAck
  | 14 => some .inCtl
  | 15 => some .inWindow
  | 16 => some .inChecksum
  | 17 => some .inUrgent
  | 18 => some .inOptLen
  | 19 => some .inPayLen
  | _ => none

/-- The offset of a register (10_state.md R46). -/
def hostRegOffset : HostReg → Nat
  | .cmd => 0x00000
  | .status => 0x00004
  | .res0 => 0x00008
  | .res1 => 0x0000C
  | .res2 => 0x00010
  | .bufLen => 0x00014
  | .inSrcAddr => 0x00020
  | .inDstAddr => 0x00024
  | .inSrcPort => 0x00028
  | .inDstPort => 0x0002C
  | .inSeq => 0x00030
  | .inAck => 0x00034
  | .inCtl => 0x00038
  | .inWindow => 0x0003C
  | .inChecksum => 0x00040
  | .inUrgent => 0x00044
  | .inOptLen => 0x00048
  | .inPayLen => 0x0004C

/-- The offset of an array's byte 0 (10_state.md R46). -/
def arrayBase : HostArray → Nat
  | .inOpt => 0x00100
  | .inPay => 0x10000
  | .buf => 0x20000

/-- The bytes of an array (10_state.md R46). -/
def arraySize : HostArray → Nat
  | .inOpt => Config.optMax
  | .inPay => Config.payloadMax
  | .buf => Config.bufCap

/-- The array whose bytes an offset lies among. -/
def arrayAt (off : Nat) : Option HostArray :=
  if arrayBase .inOpt ≤ off ∧ off < arrayBase .inOpt + arraySize .inOpt then some .inOpt
  else if arrayBase .inPay ≤ off ∧ off < arrayBase .inPay + arraySize .inPay then some .inPay
  else if arrayBase .buf ≤ off ∧ off < arrayBase .buf + arraySize .buf then some .buf
  else none

/-- The bytes of an access. -/
def widthBytes : Width → Nat
  | .w8 => 1
  | .w16 => 2
  | .w32 => 4

/-- What a permitted access reaches: a register, or an array from an index on. -/
inductive Target where
  | reg (r : HostReg)
  | bytes (a : HostArray) (i : Nat)
  deriving DecidableEq, Repr

/-- What an access of width w at an offset reaches, or why it is refused (10_state.md R46, R47; 20_memory.md R62). The register space
is offsets 0x00000 to 0x0004F. -/
def resolve (w : Width) (off : Offset) : Except Fault Target :=
  if off.toNat < 0x50 then
    match hostRegAt (off.toNat / 4) with
    | none => .error (.hostUnmapped off)
    | some r => if w = .w32 ∧ off.toNat % 4 = 0 then .ok (.reg r) else .error (.hostWidthOrAlignment off)
  else
    match arrayAt off.toNat with
    | none => .error (.hostUnmapped off)
    | some a =>
      if off.toNat % widthBytes w ≠ 0 then .error (.hostWidthOrAlignment off)
      else if off.toNat - arrayBase a + widthBytes w ≤ arraySize a then .ok (.bytes a (off.toNat - arrayBase a))
      else .error (.hostCrossesArray off)

/-- What a register reads as: CMD as 0 (10_state.md R42), STATUS as its word (R43), a narrow register zero-extended (R48), an undefined
one as no value (R41). -/
def readReg (r : HostReg) (u : CodecUnit) : Option Word :=
  match r with
  | .cmd => some 0
  | .status => some (statusWord u)
  | .res0 => u.res0
  | .res1 => u.res1
  | .res2 => u.res2
  | .bufLen => u.bufLen.map (·.setWidth 32)
  | .inSrcAddr => u.inp.srcAddr
  | .inDstAddr => u.inp.dstAddr
  | .inSrcPort => u.inp.srcPort.map (·.setWidth 32)
  | .inDstPort => u.inp.dstPort.map (·.setWidth 32)
  | .inSeq => u.inp.seq
  | .inAck => u.inp.ack
  | .inCtl => u.inp.ctl.map (·.setWidth 32)
  | .inWindow => u.inp.window.map (·.setWidth 32)
  | .inChecksum => u.inp.checksum.map (·.setWidth 32)
  | .inUrgent => u.inp.urgent.map (·.setWidth 32)
  | .inOptLen => u.inp.optLen.map (·.setWidth 32)
  | .inPayLen => u.inp.payLen.map (·.setWidth 32)

/-- A write to a register: the implemented low bits are stored and the defined-bit set (10_state.md R37, R48); a write to a read-only
register is ignored (R43, R44, R47). CMD holds no state (R42); the command its write starts is `runCommandWord`. -/
def writeReg (r : HostReg) (v : Word) (u : CodecUnit) : CodecUnit :=
  match r with
  | .cmd => u
  | .status => u
  | .res0 => u
  | .res1 => u
  | .res2 => u
  | .bufLen => { u with bufLen := some (v.setWidth 16) }
  | .inSrcAddr => { u with inp := { u.inp with srcAddr := some v } }
  | .inDstAddr => { u with inp := { u.inp with dstAddr := some v } }
  | .inSrcPort => { u with inp := { u.inp with srcPort := some (v.setWidth 16) } }
  | .inDstPort => { u with inp := { u.inp with dstPort := some (v.setWidth 16) } }
  | .inSeq => { u with inp := { u.inp with seq := some v } }
  | .inAck => { u with inp := { u.inp with ack := some v } }
  | .inCtl => { u with inp := { u.inp with ctl := some (v.setWidth 16) } }
  | .inWindow => { u with inp := { u.inp with window := some (v.setWidth 16) } }
  | .inChecksum => { u with inp := { u.inp with checksum := some (v.setWidth 16) } }
  | .inUrgent => { u with inp := { u.inp with urgent := some (v.setWidth 16) } }
  | .inOptLen => { u with inp := { u.inp with optLen := some (v.setWidth 8) } }
  | .inPayLen => { u with inp := { u.inp with payLen := some (v.setWidth 16) } }

/-- The contents of an array. -/
def arrayMemory (a : HostArray) (u : CodecUnit) : Memory :=
  match a with
  | .inOpt => u.inp.opt
  | .inPay => u.inp.pay
  | .buf => u.buf

/-- Replace the contents of an array. -/
def setArrayMemory (a : HostArray) (m : Memory) (u : CodecUnit) : CodecUnit :=
  match a with
  | .inOpt => { u with inp := { u.inp with opt := m } }
  | .inPay => { u with inp := { u.inp with pay := m } }
  | .buf => { u with buf := m }

/-- The bus value of an array read: the bytes in big-endian order (20_memory.md R61), zero-extended to the 32-bit bus (log 8). -/
def busValue (w : Width) (bs : List Byte) : Word :=
  match w with
  | .w8 => (byteAt bs 0).setWidth 32
  | .w16 => (be16 bs 0).setWidth 32
  | .w32 => be32 bs 0

/-- The bytes an array write stores, from the low bits of the bus value, most significant first (20_memory.md R61). -/
def busBytes (w : Width) (v : Word) : List Byte :=
  match w with
  | .w8 => [v.setWidth 8]
  | .w16 => bytes16 (v.setWidth 16)
  | .w32 => bytes32 v

/-- A value read, or ⊥ (10_state.md R41). -/
def readReply (v : Option Word) : ReadReply :=
  match v with
  | some v => .value v
  | none => .undefined

/-- What a permitted read returns; ⊥ if a register or any byte it covers is undefined (10_state.md R41, 20_memory.md R61). -/
def hostRead (w : Width) (t : Target) (u : CodecUnit) : ReadReply :=
  match t with
  | .reg r => readReply (readReg r u)
  | .bytes a i => readReply (((arrayMemory a u).readBytes i (widthBytes w)).map (busValue w))

/-- What a permitted write that is not a CMD write stores. -/
def hostWrite (w : Width) (t : Target) (v : Word) (u : CodecUnit) : CodecUnit :=
  match t with
  | .reg r => writeReg r v u
  | .bytes a i => setArrayMemory a ((arrayMemory a u).writeBytes i (busBytes w v)) u

/-- The bus address of an offset of unit u's window (10_state.md R46, 20_memory.md R68; log 9). -/
def busAddress (u : Nat) (off : Offset) : Nat := Config.unitBase u + off.toNat

end Sys2Proof.Machine
end

