-- ==== Sys2Proof/Machine/Events.lean ====
section
/-! DEFINITION. What one event does to the system: a host access to a unit, a command started by a CMD write, a reset of a unit. -/

namespace Sys2Proof.Machine

/-- A host write of word w to CMD: the command w encodes runs to completion (10_state.md R42); an illegal word raises ILLEGAL_COMMAND,
"decided from the word alone, before any state is read" (60_exceptions.md R245). -/
def runCommandWord (w : Word) (s : State) : Result :=
  match decode w with
  | .ok i => exec i s
  | .error _ => raiseIllegalCommand s

/-- One host access to the unit being accessed. A refused access has no step (10_state.md R47, 20_memory.md R62); a read changes
nothing but what the host has read (20_memory.md R66). -/
def runAccess (a : Access) (s : State) : Result :=
  match a with
  | .read w off =>
    match resolve w off with
    | .error f => .fault f
    | .ok t => .next { s with lastRead := some (hostRead w t s.unit) }
  | .write w off v =>
    match resolve w off with
    | .error f => .fault f
    | .ok (.reg .cmd) => runCommandWord v s
    | .ok t => .next (s.setUnit (hostWrite w t v s.unit))

/-- One event: turn to its unit, then the access or the reset (70_reset_and_hazards.md R270). -/
def runEvent (e : Event) (s : State) : Result :=
  match e with
  | .access u a =>
    match selectUnit u s with
    | none => .fault (.noSuchUnit u)
    | some t => runAccess a t
  | .reset u =>
    match selectUnit u s with
    | none => .fault (.noSuchUnit u)
    | some t => .next (t.setUnit CodecUnit.reset)

/-- The oldest pending event happens; with none pending the block is idle (70_reset_and_hazards.md R272). -/
def runPending (s : State) : Result :=
  match s.pending with
  | [] => .next s
  | e :: rest => runEvent e { s with pending := rest }

/-- The 32-bit host write of w to CMD of the unit being accessed (10_state.md R42, R46). -/
def commandWrite (w : Word) (s : State) : Event := .access s.sel (.write .w32 0x00000 w)

/-- Let the host's next access be the write of w to CMD. -/
def enqueueCommand (w : Word) (s : State) : State := { s with pending := commandWrite w s :: s.pending }

end Sys2Proof.Machine
end

