-- ==== Sys2Proof/Machine/Step.lean ====
section
/-! DEFINITION. The step of the machine, and the state whose next step runs a given command word. -/

namespace Sys2Proof.Machine

/-- One step: the oldest pending event (20_memory.md R70). -/
def step (s : State) : Host.Outcome State Fault Refusal := runPending s

/-- s with the command word of an opcode-table row where the next step takes its command from: a host write to CMD, ahead of
everything pending (log 6). -/
def State.withFetchWord (s : State) (nbits w : Nat) : State := enqueueCommand (tableWord nbits w) s

end Sys2Proof.Machine
end

