-- ==== Sys2Proof/Machine/Assembler.lean ====
section
/-! DEFINITION. The assembler of host programs: its lines (30_encoding.md R87), their host accesses, and the pseudo-instructions
(R88). The text syntax carries no semantics (D42) and is not modelled; a line is its abstract form (log 19). -/

namespace Sys2Proof.Machine

/-- The registers `WR` takes (30_encoding.md R87). -/
def wrRegister : HostReg → Bool
  | .cmd | .bufLen => true
  | .inSrcAddr | .inDstAddr | .inSrcPort | .inDstPort | .inSeq | .inAck => true
  | .inCtl | .inWindow | .inChecksum | .inUrgent | .inOptLen | .inPayLen => true
  | .status | .res0 | .res1 | .res2 => false

/-- One line of a host program (30_encoding.md R87). -/
inductive AsmLine where
  /-- `<MNEMONIC>`, `SET_FIELD <NAME>` or `GET_FIELD <NAME>` -/
  | command (i : Instr)
  /-- `WR <REG>, <value>` -/
  | wr (r : HostReg) (v : Word)
  /-- `WRB <ARR>[<i>], <b0>, <b1>, …` -/
  | wrb (a : HostArray) (i : Nat) (bs : List Byte)
  /-- `RD <REG>` -/
  | rd (r : HostReg)
  /-- `RDB <ARR>[<i>], <n>` -/
  | rdb (a : HostArray) (i n : Nat)
  deriving DecidableEq, Repr

/-- A line the assembler has: a well-formed command, and no `WR` to a read-only register (30_encoding.md R87, 95_test_vectors.md
V62). DESIGN CHOICE: a `WRB` or `RDB` that reaches outside its array is a line too; R87 does not say whether it is (log 21, unsafe). DESIGN CHOICE: so is a
`WRB` with no bytes and an `RDB` with n = 0, and such a line makes no access (log 23, unsafe). `RD` takes every register (log 19). -/
def asmLineLegal : AsmLine → Bool
  | .command i => i.wellFormed
  | .wr r _ => wrRegister r
  | .wrb _ _ _ => true
  | .rd _ => true
  | .rdb _ _ _ => true

/-- The offset of byte i of an array (10_state.md R46). DESIGN CHOICE: for an index outside the array, which R87 does not speak of, the
sum is taken modulo the window's 2^18 bytes, so IN_OPT[0x40000] is IN_OPT[0] (log 21, unsafe). -/
def arrayOffset (a : HostArray) (i : Nat) : Offset := BitVec.ofNat 18 (arrayBase a + i)

/-- The offset of a register (10_state.md R46). -/
def regOffset (r : HostReg) : Offset := BitVec.ofNat 18 (hostRegOffset r)

/-- `WRB`'s accesses: one 8-bit host write a byte (30_encoding.md R87). -/
def byteWrites (u : Nat) (a : HostArray) (i : Nat) : List Byte → List Event
  | [] => []
  | b :: bs => .access u (.write .w8 (arrayOffset a i) (b.setWidth 32)) :: byteWrites u a (i + 1) bs

/-- `RDB`'s accesses: n 8-bit host reads (30_encoding.md R87; 95_test_vectors.md P1 row 12). -/
def byteReads (u : Nat) (a : HostArray) (i : Nat) : Nat → List Event
  | 0 => []
  | n + 1 => .access u (.read .w8 (arrayOffset a i)) :: byteReads u a (i + 1) n

/-- The host accesses of a line, on unit u (30_encoding.md R87). -/
def assembleLine (u : Nat) : AsmLine → List Event
  | .command i => [.access u (.write .w32 (regOffset .cmd) (encode i))]
  | .wr r v => [.access u (.write .w32 (regOffset r) v)]
  | .wrb a i bs => byteWrites u a i bs
  | .rd r => [.access u (.read .w32 (regOffset r))]
  | .rdb a i n => byteReads u a i n

/-- The host accesses of a program, in order (30_encoding.md R87, 20_memory.md R70). -/
def assemble (u : Nat) (p : List AsmLine) : List Event := p.flatMap (assembleLine u)

/-! Pseudo-instructions (30_encoding.md R88) -/

/-- a.b.c.d standing for a ++ b ++ c ++ d (30_encoding.md R87, 10_state.md R34). -/
def ipv4 (a b c d : Byte) : Word := a ++ b ++ c ++ d

/-- The six operand writes of a constructor pseudo-instruction. DESIGN CHOICE: R88 gives the ports p and q no width; they are 16 bits
here, zero-extended to the 32 bits `WR` writes (log 22, safe). -/
def asmControlOperands (a b : Word) (p q : Half) (s k : Word) : List AsmLine :=
  [.wr .inSrcAddr a, .wr .inDstAddr b, .wr .inSrcPort (p.setWidth 32), .wr .inDstPort (q.setWidth 32), .wr .inSeq s, .wr .inAck k]

/-- `NEW_ACK a, b, p, q, s, k` -/
def asmNewAck (a b : Word) (p q : Half) (s k : Word) : List AsmLine := asmControlOperands a b p q s k ++ [.command .newAck]

/-- `NEW_ACK_SYN a, b, p, q, s, k` -/
def asmNewAckSyn (a b : Word) (p q : Half) (s k : Word) : List AsmLine := asmControlOperands a b p q s k ++ [.command .newAckSyn]

/-- `NEW_RST a, b, p, q, s, k` -/
def asmNewRst (a b : Word) (p q : Half) (s k : Word) : List AsmLine := asmControlOperands a b p q s k ++ [.command .newRst]

/-- `NEW_RST_ACK a, b, p, q, s, k` -/
def asmNewRstAck (a b : Word) (p q : Half) (s k : Word) : List AsmLine :=
  asmNewRst a b p q s k ++ [.wr .inCtl 0x0014, .command (.setField .flags)]

/-- `SET_OPTIONS b0, …, b(n-1)`; the n that `WR` writes is taken modulo 2^32, a DESIGN CHOICE for longer lists (log 21). n = 0 is taken
to be allowed, with no array write, a DESIGN CHOICE (log 23). -/
def asmSetOptions (bs : List Byte) : List AsmLine :=
  [.wrb .inOpt 0 bs, .wr .inOptLen (BitVec.ofNat 32 bs.length), .command (.setField .options)]

/-- `SET_PAYLOAD b0, …, b(n-1)`; the n that `WR` writes is taken modulo 2^32, a DESIGN CHOICE for longer lists (log 21). n = 0 is taken
to be allowed, with no array write, a DESIGN CHOICE (log 23). -/
def asmSetPayload (bs : List Byte) : List AsmLine :=
  [.wrb .inPay 0 bs, .wr .inPayLen (BitVec.ofNat 32 bs.length), .command (.setField .payload)]

/-- `SERIALIZE_TO c` -/
def asmSerializeTo (c : Word) : List AsmLine := [.wr .bufLen c, .command .serialize]

/-- `SERIALIZE_FIXUP_TO c` -/
def asmSerializeFixupTo (c : Word) : List AsmLine := [.wr .bufLen c, .command .serializeFixup]

/-- `PARSE_FROM n, a, b` -/
def asmParseFrom (n a b : Word) : List AsmLine := [.wr .bufLen n, .wr .inSrcAddr a, .wr .inDstAddr b, .command .parse]

end Sys2Proof.Machine
end

