-- ==== Sys2Proof/Safety.lean ====
section
/-! DEFINITION. What the statements mean by a good state and a safe step: the invariant of a unit and of the system, and the events
the host access rules permit. -/

namespace Sys2Proof.Machine

/-- Every listed index of a byte array lies inside the array. -/
abbrev Memory.below (m : Memory) (n : Nat) : Prop := ∀ c ∈ m, c.1 < n

/-- A byte array in its one form, with no byte outside its n bytes. -/
structure MemoryGood (m : Memory) (n : Nat) : Prop where
  rising : m.wf
  inside : m.below n

/-- A segment's options and payload fit their storage (10_state.md R32, R33). -/
structure SegmentGood (g : Segment) : Prop where
  optFits : g.opt.length ≤ Config.optMax
  payFits : g.pay.length ≤ Config.payloadMax

/-- The invariant of a unit: its arrays have no byte beyond OPT_MAX, PAYLOAD_MAX and BUF_CAP (10_state.md R36, R39, R40), its segment
fits (R32, R33), and a raised code has set ERR_SEEN (R43). -/
structure UnitGood (u : CodecUnit) : Prop where
  opt : MemoryGood u.inp.opt Config.optMax
  pay : MemoryGood u.inp.pay Config.payloadMax
  buf : MemoryGood u.buf Config.bufCap
  seg : ∀ g, u.seg = some g → SegmentGood g
  sticky : ∀ e, u.code = .raised e → u.errSeen = true

/-- The invariant of the system: every unit is good, only units that exist are held (00_scope.md R7, R9), and the units held aside
are in their one form: by rising index, none of them the unit being accessed, none in its reset state. -/
structure StateGood (s : State) : Prop where
  unit : UnitGood s.unit
  exists_ : s.sel < Config.numUnits
  parkedRising : s.parked.Pairwise fun p q => p.1 < q.1
  parkedGood : ∀ p ∈ s.parked, UnitGood p.2 ∧ p.1 < Config.numUnits ∧ p.1 ≠ s.sel ∧ p.2 ≠ CodecUnit.reset

/-- The unit an event is addressed to. -/
def eventUnit : Event → Nat
  | .access u _ => u
  | .reset u => u

/-- The host access rules permit an access (10_state.md R47). -/
def accessPermitted : Access → Bool
  | .read w off => (resolve w off).isOk
  | .write w off _ => (resolve w off).isOk

/-- An event the system has a step for: its unit exists, and an access is one the rules permit (10_state.md R47, 00_scope.md R7). -/
def EventPermitted : Event → Prop
  | .access u a => u < Config.numUnits ∧ accessPermitted a = true
  | .reset u => u < Config.numUnits

end Sys2Proof.Machine
end

