-- ==== Sys2Proof/Certificates/Slice0/Obligations.lean ====
section
/-! DEFINITION. The statements for the provers, from the numbered rules of spec/. The shared shapes of statements come first, under
Sys2Proof.Claims; each obligation is a def Obligations.<Name> : Prop. -/

open Sys2Proof Sys2Proof.Machine

/-! Shapes of statements -/

/-- Command i ends with code e: STATUS.CODE <- e, ERR_SEEN <- 1, nothing else (60_exceptions.md R243). -/
def Sys2Proof.Claims.Raises (i : Instr) (s : State) (e : Cause) : Prop :=
  exec i s = .next { s with unit := { s.unit with code := .raised e, errSeen := true } }

/-- Command i, whose word is w, is a query of the segment: with a segment it writes `f` of it to RES0 and OK to CODE and changes
nothing else; without one it raises NO_SEGMENT. -/
def Sys2Proof.Claims.Query (i : Instr) (w : Word) (f : Segment → Word) : Prop :=
  decode w = .ok i ∧
    ∀ s : State,
      (∀ g, s.unit.seg = some g → exec i s = .next { s with unit := { s.unit with res0 := some (f g), code := .ok } }) ∧
      (s.unit.seg = none → Claims.Raises i s .noSegment)

/-- Command i, whose word is w, is a control-segment constructor that loads `ctl` (40_construction.md R120): with the six operands
defined it loads the fixed-format segment, with one of them undefined it raises OPERAND_UNSET. -/
def Sys2Proof.Claims.ControlConstructor (i : Instr) (w : Word) (ctl : Half) : Prop :=
  decode w = .ok i ∧
    (∀ (s : State) (sa da sq ak : Word) (sp dp : Half),
      s.unit.inp.srcAddr = some sa → s.unit.inp.dstAddr = some da → s.unit.inp.srcPort = some sp →
      s.unit.inp.dstPort = some dp → s.unit.inp.seq = some sq → s.unit.inp.ack = some ak →
      exec i s = .next { s with unit := { s.unit with
        seg := some { srcAddr := sa, dstAddr := da, srcPort := sp, dstPort := dp, seq := sq, ack := ak, ctl := ctl,
                      window := 0xFFFF, checksum := 0x0000, urgent := 0x0000, opt := [], pay := [] },
        code := .ok } }) ∧
    (∀ s : State,
      (s.unit.inp.srcAddr = none ∨ s.unit.inp.dstAddr = none ∨ s.unit.inp.srcPort = none ∨ s.unit.inp.dstPort = none ∨
        s.unit.inp.seq = none ∨ s.unit.inp.ack = none) →
      Claims.Raises i s .operandUnset)

/-- SET_FIELD f takes the operand register `r` and updates the segment by `upd`, changing nothing else but CODE; with the register
undefined it raises OPERAND_UNSET (40_construction.md R127, R128). -/
def Sys2Proof.Claims.SetsField {α : Type} (f : Fid) (r : OperandBank → Option α) (upd : α → Segment → Segment) : Prop :=
  ∀ (s : State) (g : Segment), s.unit.seg = some g →
    (∀ v, r s.unit.inp = some v →
      exec (.setField f) s = .next { s with unit := { s.unit with seg := some (upd v g), code := .ok } }) ∧
    (r s.unit.inp = none → Claims.Raises (.setField f) s .operandUnset)

/-- GET_FIELD f writes `r` of the segment to RES0 and changes nothing else but CODE (43_accessors.md R207, R208). -/
def Sys2Proof.Claims.GetsField (f : Fid) (r : Segment → Word) : Prop :=
  ∀ (s : State) (g : Segment), s.unit.seg = some g →
    exec (.getField f) s = .next { s with unit := { s.unit with res0 := some (r g), code := .ok } }

/-- The twelve scalar operands of FROM_HEADER are all defined (40_construction.md R124). -/
def Sys2Proof.Claims.HeaderScalars (b : OperandBank) : Prop :=
  b.srcAddr.isSome ∧ b.dstAddr.isSome ∧ b.srcPort.isSome ∧ b.dstPort.isSome ∧ b.seq.isSome ∧ b.ack.isSome ∧
    b.ctl.isSome ∧ b.window.isSome ∧ b.checksum.isSome ∧ b.urgent.isSome ∧ b.optLen.isSome ∧ b.payLen.isSome

/-- The bytes a, a+1, … of an array are exactly the list's. -/
def Sys2Proof.Claims.Holds (m : Memory) (a : Nat) (bs : List Byte) : Prop := ∀ i, i < bs.length → m.read (a + i) = bs[i]?

/-- What a serialization with header length 4*dw leaves behind (42_serialize.md R167, R168, R171; 30_encoding.md R100, R103): the wire
bytes in BUF[0..L-1], every one of them defined, the checksum of those bytes at 16 and 17, every byte from L up as before, L in RES0, and nothing else changed
but CODE. -/
def Sys2Proof.Claims.Emitted (s t : State) (g : Segment) (dw : BitVec 4) : Prop :=
  t = { s with unit := { s.unit with
        buf := t.unit.buf, res0 := some (BitVec.ofNat 32 (4 * dw.toNat + g.pay.length)), code := .ok } } ∧
    t.unit.buf.read 0 = some (g.srcPort.extractLsb' 8 8) ∧ t.unit.buf.read 1 = some (g.srcPort.extractLsb' 0 8) ∧
    t.unit.buf.read 2 = some (g.dstPort.extractLsb' 8 8) ∧ t.unit.buf.read 3 = some (g.dstPort.extractLsb' 0 8) ∧
    t.unit.buf.read 4 = some (g.seq.extractLsb' 24 8) ∧ t.unit.buf.read 5 = some (g.seq.extractLsb' 16 8) ∧
    t.unit.buf.read 6 = some (g.seq.extractLsb' 8 8) ∧ t.unit.buf.read 7 = some (g.seq.extractLsb' 0 8) ∧
    t.unit.buf.read 8 = some (g.ack.extractLsb' 24 8) ∧ t.unit.buf.read 9 = some (g.ack.extractLsb' 16 8) ∧
    t.unit.buf.read 10 = some (g.ack.extractLsb' 8 8) ∧ t.unit.buf.read 11 = some (g.ack.extractLsb' 0 8) ∧
    t.unit.buf.read 12 = some (dw ++ g.ctl.extractLsb' 8 4 : Byte) ∧ t.unit.buf.read 13 = some (g.ctl.extractLsb' 0 8) ∧
    t.unit.buf.read 14 = some (g.window.extractLsb' 8 8) ∧ t.unit.buf.read 15 = some (g.window.extractLsb' 0 8) ∧
    t.unit.buf.read 18 = some (g.urgent.extractLsb' 8 8) ∧ t.unit.buf.read 19 = some (g.urgent.extractLsb' 0 8) ∧
    Claims.Holds t.unit.buf 20 g.opt ∧
    (∀ x, 20 + g.opt.length ≤ x → x < 4 * dw.toNat → t.unit.buf.read x = some 0x00) ∧
    Claims.Holds t.unit.buf (4 * dw.toNat) g.pay ∧
    (∀ x, 4 * dw.toNat + g.pay.length ≤ x → t.unit.buf.read x = s.unit.buf.read x) ∧
    ∃ bs : List Byte, bs.length = 4 * dw.toNat + g.pay.length ∧ Claims.Holds t.unit.buf 0 bs ∧
      t.unit.buf.read 16 = some ((tcpChecksum g.srcAddr g.dstAddr bs).extractLsb' 8 8) ∧
      t.unit.buf.read 17 = some ((tcpChecksum g.srcAddr g.dstAddr bs).extractLsb' 0 8)

/-- The OPC values of the opcode map (30_encoding.md R82). -/
def Sys2Proof.Claims.opcodes : List Nat :=
  [0x01, 0x02, 0x03, 0x04, 0x05, 0x10, 0x20, 0x21, 0x22, 0x23, 0x30, 0x31, 0x32, 0x33, 0x34, 0x35, 0x36,
   0x40, 0x41, 0x42, 0x43, 0x44, 0x50]

/-- The selector table (30_encoding.md R83). -/
def Sys2Proof.Claims.selectors : List (Nat × Fid) :=
  [(0, .srcPort), (1, .dstPort), (2, .seq), (3, .ack), (4, .dataOffset), (5, .reserved), (6, .flags), (7, .window),
   (8, .checksum), (9, .urgent), (10, .options), (11, .payload), (12, .srcAddr), (13, .dstAddr)]

/-- The four conditions that make a word illegal, on its bits (30_encoding.md R84). -/
def Sys2Proof.Claims.IllegalWord (w : Word) : Prop :=
  w.toNat % 0x100 ∉ Claims.opcodes ∨
    w.toNat / 0x1000 ≠ 0 ∨
    (w.toNat / 0x100 % 0x10 ≠ 0 ∧ w.toNat % 0x100 ≠ 0x05 ∧ w.toNat % 0x100 ≠ 0x36) ∨
    (14 ≤ w.toNat / 0x100 % 0x10 ∧ (w.toNat % 0x100 = 0x05 ∨ w.toNat % 0x100 = 0x36))

/-- The legal words of 30_encoding.md R85: 0x000000oo, 0x00000f05 and 0x00000f36. -/
def Sys2Proof.Claims.legalWords : List Nat :=
  (Claims.opcodes.filter fun o => o ≠ 0x05 ∧ o ≠ 0x36) ++
    (List.range 14).map (fun f => f * 0x100 + 0x05) ++ (List.range 14).map (fun f => f * 0x100 + 0x36)

/-- The read-write registers of the host map and their implemented bits (10_state.md R46). -/
def Sys2Proof.Claims.rwRegisters : List (Nat × Nat) :=
  [(0x14, 16), (0x20, 32), (0x24, 32), (0x28, 16), (0x2C, 16), (0x30, 32), (0x34, 32), (0x38, 16), (0x3C, 16), (0x40, 16),
   (0x44, 16), (0x48, 8), (0x4C, 16)]

/-- The byte arrays of the host map: base offset and size (10_state.md R46). -/
def Sys2Proof.Claims.arrays : List (Nat × Nat) :=
  [(0x00100, 40), (0x10000, Config.payloadMax), (0x20000, Config.bufCap)]

/-- The accesses the rules of 10_state.md R47 permit, on width and offset. -/
def Sys2Proof.Claims.Permitted (w : Width) (off : Nat) : Prop :=
  (w = .w32 ∧ off % 4 = 0 ∧ (off ≤ 0x14 ∨ 0x20 ≤ off ∧ off ≤ 0x4C)) ∨
    ∃ p ∈ Claims.arrays, off % widthBytes w = 0 ∧ p.1 ≤ off ∧ off + widthBytes w ≤ p.1 + p.2

/-- Commands whose only writes on success are CODE and RES0 (FORMAT: RES0 to RES2). -/
def Sys2Proof.Claims.pureQueries : List Instr :=
  [.getSize, .tag, .getSrcPort, .getDstPort, .getSeq, .getAck, .getSrcAddr, .getDstAddr, .isAck, .isRst, .isSyn, .isFin,
   .isRstOrFin, .format, .getField .srcPort, .getField .dstPort, .getField .seq, .getField .ack, .getField .dataOffset,
   .getField .reserved, .getField .flags, .getField .window, .getField .checksum, .getField .urgent, .getField .srcAddr,
   .getField .dstAddr]

/-- The commands that need the segment (60_exceptions.md R244). -/
def Sys2Proof.Claims.NeedsSegment : Instr → Prop
  | .setField f => f.legal = true
  | .getField f => f.legal = true
  | .newAck | .newAckSyn | .newRst | .fromHeader | .parse => False
  | .serialize | .serializeFixup | .getSize | .tag => True
  | .getSrcPort | .getDstPort | .getSeq | .getAck | .getSrcAddr | .getDstAddr => True
  | .isAck | .isRst | .isSyn | .isFin | .isRstOrFin | .format => True

/-- The frame every command keeps: BUF_LEN of the unit being accessed, and all of the system outside that unit (the other units, and
the model's own fields of logs 5, 6 and 8). -/
def Sys2Proof.Claims.SystemFrame (s t : State) : Prop :=
  t.sel = s.sel ∧ t.parked = s.parked ∧ t.pending = s.pending ∧ t.lastRead = s.lastRead ∧ t.unit.bufLen = s.unit.bufLen

/-- Every byte of the three arrays reads as before. -/
def Sys2Proof.Claims.ArraysFrame (s t : State) : Prop :=
  ∀ x, t.unit.buf.read x = s.unit.buf.read x ∧ t.unit.inp.opt.read x = s.unit.inp.opt.read x ∧
    t.unit.inp.pay.read x = s.unit.inp.pay.read x

/-- The twelve scalar operand registers are as before, but for IN.opt_len and IN.pay_len. -/
def Sys2Proof.Claims.ScalarsFrame (s t : State) : Prop :=
  t.unit.inp.srcAddr = s.unit.inp.srcAddr ∧ t.unit.inp.dstAddr = s.unit.inp.dstAddr ∧
    t.unit.inp.srcPort = s.unit.inp.srcPort ∧ t.unit.inp.dstPort = s.unit.inp.dstPort ∧ t.unit.inp.seq = s.unit.inp.seq ∧
    t.unit.inp.ack = s.unit.inp.ack ∧ t.unit.inp.ctl = s.unit.inp.ctl ∧ t.unit.inp.window = s.unit.inp.window ∧
    t.unit.inp.checksum = s.unit.inp.checksum ∧ t.unit.inp.urgent = s.unit.inp.urgent

/-- The state of a serialized segment's unit after the host has set BUF_LEN to n and the two addresses, before a PARSE. -/
def Sys2Proof.Claims.readyToParse (t : State) (n : Nat) (sa da : Word) : State :=
  { t with unit := { t.unit with bufLen := some (BitVec.ofNat 16 n),
                                 inp := { t.unit.inp with srcAddr := some sa, dstAddr := some da } } }

/-! Encoding -/

/-- A word decodes to a command exactly when the command is well formed and the word is its encoding: no bit of a word is dropped, and
no two words name one command (30_encoding.md R80 to R85). -/
def Obligations.DecodeIffEncode : Prop :=
  ∀ (w : Word) (i : Instr), decode w = .ok i ↔ i.wellFormed = true ∧ encode i = w

/-- Words of 95_test_vectors.md, one of each family, decode to the commands they stand for, and so do the words 0x00000f05 and
0x00000f36 for every selector f of 30_encoding.md R83. -/
def Obligations.SampleWordsDecode : Prop :=
  decode 0x00000001 = .ok .newAck ∧ decode 0x00000605 = .ok (.setField .flags) ∧ decode 0x00000010 = .ok .parse ∧
    decode 0x00000021 = .ok .serializeFixup ∧ decode 0x00000035 = .ok .getDstAddr ∧
    decode 0x00000D36 = .ok (.getField .dstAddr) ∧ decode 0x00000042 = .ok .isSyn ∧ decode 0x00000050 = .ok .format ∧
    ∀ p ∈ Claims.selectors, decode (BitVec.ofNat 32 (p.1 * 0x100 + 0x05)) = .ok (.setField p.2) ∧
      decode (BitVec.ofNat 32 (p.1 * 0x100 + 0x36)) = .ok (.getField p.2)

/-- 30_encoding.md R84: a word is illegal exactly under its four conditions, OPC 0x00 among them, and writing an illegal word to CMD
raises ILLEGAL_COMMAND in every state (60_exceptions.md R245), as SET_FIELD and GET_FIELD with a reserved selector do (40_construction.md
R126, 43_accessors.md R206). -/
def Obligations.IllegalWordsRaise : Prop :=
  (∀ w : Word, (∃ d, decode w = .error d) ↔ Claims.IllegalWord w) ∧
    Claims.IllegalWord 0x00000000 ∧
    (∀ (w : Word) (s : State), Claims.IllegalWord w →
      runCommandWord w s = .next { s with unit := { s.unit with code := .raised .illegalCommand, errSeen := true } }) ∧
    (∀ (w : Word) (s : State) (rest : List Event), Claims.IllegalWord w →
      s.pending = .access s.sel (.write .w32 0x00000 w) :: rest →
      step s = .next { s with pending := rest,
                              unit := { s.unit with code := .raised .illegalCommand, errSeen := true } }) ∧
    ∀ (f : Fid) (s : State), f.legal = false →
      Claims.Raises (.setField f) s .illegalCommand ∧ Claims.Raises (.getField f) s .illegalCommand

/-- 30_encoding.md R85: decoding checks MBZ, then OPC, then FID, and the legal words are exactly the 49 listed. -/
def Obligations.LegalWordsAre49 : Prop :=
  (∀ w : Word, w.toNat / 0x1000 ≠ 0 → decode w = .error .mbzNotZero) ∧
    (∀ w : Word, w.toNat / 0x1000 = 0 → w.toNat % 0x100 ∉ Claims.opcodes → decode w = .error .unknownOpcode) ∧
    (∀ w : Word, (∃ i, decode w = .ok i) ↔ w.toNat ∈ Claims.legalWords) ∧
    Claims.legalWords.length = 49 ∧ Claims.legalWords.Nodup

/-! The step -/

/-- A step whose pending event is a host write to CMD runs the decoded command on the unit addressed, the event removed from those
pending (10_state.md R42); `withFetchWord` puts such a write first; with nothing pending the block is idle. -/
def Obligations.StepRunsDecodedCommand : Prop :=
  (∀ (s : State) (w : Word) (i : Instr) (rest : List Event), decode w = .ok i →
      s.pending = .access s.sel (.write .w32 0x00000 w) :: rest → step s = exec i { s with pending := rest }) ∧
    (∀ (s : State) (w : Word) (i : Instr), decode w = .ok i → step (s.withFetchWord 32 w.toNat) = exec i s) ∧
    (∀ s : State, s.pending = [] → step s = .next s)

/-! Construction and field edits -/

/-- 40_construction.md R120. -/
def Obligations.NewAckBuildsAckSegment : Prop := Claims.ControlConstructor .newAck 0x00000001 0x5010

/-- 40_construction.md R121: the segment, and IS_ACK and IS_SYN then both return 1. -/
def Obligations.NewAckSynBuildsSynAckSegment : Prop :=
  Claims.ControlConstructor .newAckSyn 0x00000002 0x5012 ∧
    ∀ s t : State, exec .newAckSyn s = .next t → t.unit.code = .ok →
      exec .isAck t = .next { t with unit := { t.unit with res0 := some 1, code := .ok } } ∧
      exec .isSyn t = .next { t with unit := { t.unit with res0 := some 1, code := .ok } }

/-- 40_construction.md R122: the segment, IS_RST then 1 and IS_ACK 0, and SET_FIELD FLAGS with 0x14 makes it RST+ACK. -/
def Obligations.NewRstBuildsRstSegment : Prop :=
  Claims.ControlConstructor .newRst 0x00000003 0x5004 ∧
    ∀ s t : State, exec .newRst s = .next t → t.unit.code = .ok →
      exec .isRst t = .next { t with unit := { t.unit with res0 := some 1, code := .ok } } ∧
      exec .isAck t = .next { t with unit := { t.unit with res0 := some 0, code := .ok } } ∧
      ∀ g c, t.unit.seg = some g → t.unit.inp.ctl = some c → c.extractLsb' 0 8 = (0x14 : Byte) →
        exec (.setField .flags) t = .next { t with unit := { t.unit with seg := some { g with ctl := 0x5014 }, code := .ok } }

/-- 40_construction.md R124: with every operand defined and in range, FROM_HEADER loads them verbatim and changes nothing else but
CODE. -/
def Obligations.FromHeaderLoadsVerbatim : Prop :=
  decode 0x00000004 = .ok .fromHeader ∧
    ∀ (s : State) (sa da sq ak : Word) (sp dp ct wi ck ur pl : Half) (ol : Byte) (opt pay : List Byte),
      s.unit.inp.srcAddr = some sa → s.unit.inp.dstAddr = some da → s.unit.inp.srcPort = some sp →
      s.unit.inp.dstPort = some dp → s.unit.inp.seq = some sq → s.unit.inp.ack = some ak → s.unit.inp.ctl = some ct →
      s.unit.inp.window = some wi → s.unit.inp.checksum = some ck → s.unit.inp.urgent = some ur →
      s.unit.inp.optLen = some ol → s.unit.inp.payLen = some pl →
      ol.toNat ≤ 40 → pl.toNat ≤ Config.payloadMax →
      opt.length = ol.toNat → Claims.Holds s.unit.inp.opt 0 opt → pay.length = pl.toNat → Claims.Holds s.unit.inp.pay 0 pay →
      exec .fromHeader s = .next { s with unit := { s.unit with
        seg := some { srcAddr := sa, dstAddr := da, srcPort := sp, dstPort := dp, seq := sq, ack := ak, ctl := ct,
                      window := wi, checksum := ck, urgent := ur, opt := opt, pay := pay },
        code := .ok } }

/-- 40_construction.md R124, 60_exceptions.md R244: what FROM_HEADER raises, in the order of its pseudocode. -/
def Obligations.FromHeaderRaisesInOrder : Prop :=
  ∀ s : State,
    (¬ Claims.HeaderScalars s.unit.inp → Claims.Raises .fromHeader s .operandUnset) ∧
    (∀ (ol : Byte) (pl : Half), Claims.HeaderScalars s.unit.inp → s.unit.inp.optLen = some ol → s.unit.inp.payLen = some pl →
      (40 < ol.toNat ∨ Config.payloadMax < pl.toNat → Claims.Raises .fromHeader s .illegalOperand) ∧
      (ol.toNat ≤ 40 → pl.toNat ≤ Config.payloadMax →
        ((∃ k, k < ol.toNat ∧ s.unit.inp.opt.read k = none) ∨ (∃ k, k < pl.toNat ∧ s.unit.inp.pay.read k = none)) →
        Claims.Raises .fromHeader s .operandUnset))

/-- 40_construction.md R127: SET_FIELD with each of the nine scalar selectors. -/
def Obligations.SetFieldScalarCopiesOperand : Prop :=
  Claims.SetsField .srcPort (·.srcPort) (fun v g => { g with srcPort := v }) ∧
    Claims.SetsField .dstPort (·.dstPort) (fun v g => { g with dstPort := v }) ∧
    Claims.SetsField .seq (·.seq) (fun v g => { g with seq := v }) ∧
    Claims.SetsField .ack (·.ack) (fun v g => { g with ack := v }) ∧
    Claims.SetsField .window (·.window) (fun v g => { g with window := v }) ∧
    Claims.SetsField .checksum (·.checksum) (fun v g => { g with checksum := v }) ∧
    Claims.SetsField .urgent (·.urgent) (fun v g => { g with urgent := v }) ∧
    Claims.SetsField .srcAddr (·.srcAddr) (fun v g => { g with srcAddr := v }) ∧
    Claims.SetsField .dstAddr (·.dstAddr) (fun v g => { g with dstAddr := v })

/-- 40_construction.md R128: SET_FIELD DATA_OFFSET, RESERVED and FLAGS insert one sub-field of IN.ctl and keep the other two. -/
def Obligations.SetFieldPackedInsertsSubfield : Prop :=
  Claims.SetsField .dataOffset (·.ctl)
      (fun c g => { g with ctl := (c.extractLsb' 12 4 ++ g.ctl.extractLsb' 0 12 : Half) }) ∧
    Claims.SetsField .reserved (·.ctl)
      (fun c g => { g with ctl := (g.ctl.extractLsb' 12 4 ++ c.extractLsb' 8 4 ++ g.ctl.extractLsb' 0 8 : Half) }) ∧
    Claims.SetsField .flags (·.ctl)
      (fun c g => { g with ctl := (g.ctl.extractLsb' 8 8 ++ c.extractLsb' 0 8 : Half) })

/-- 40_construction.md R129 and R130: SET_FIELD OPTIONS and PAYLOAD, the bytes they load and the codes they raise in order. -/
def Obligations.SetFieldSequencesCopyBytes : Prop :=
  (∀ (s : State) (g : Segment), s.unit.seg = some g →
    (s.unit.inp.optLen = none → Claims.Raises (.setField .options) s .operandUnset) ∧
    (∀ n : Byte, s.unit.inp.optLen = some n →
      (40 < n.toNat → Claims.Raises (.setField .options) s .illegalOperand) ∧
      (n.toNat ≤ 40 → (∃ k, k < n.toNat ∧ s.unit.inp.opt.read k = none) →
        Claims.Raises (.setField .options) s .operandUnset) ∧
      (∀ bs : List Byte, n.toNat ≤ 40 → bs.length = n.toNat → Claims.Holds s.unit.inp.opt 0 bs →
        exec (.setField .options) s =
          .next { s with unit := { s.unit with seg := some { g with opt := bs }, code := .ok } }))) ∧
  (∀ (s : State) (g : Segment), s.unit.seg = some g →
    (s.unit.inp.payLen = none → Claims.Raises (.setField .payload) s .operandUnset) ∧
    (∀ n : Half, s.unit.inp.payLen = some n →
      (Config.payloadMax < n.toNat → Claims.Raises (.setField .payload) s .illegalOperand) ∧
      (n.toNat ≤ Config.payloadMax → (∃ k, k < n.toNat ∧ s.unit.inp.pay.read k = none) →
        Claims.Raises (.setField .payload) s .operandUnset) ∧
      (∀ bs : List Byte, n.toNat ≤ Config.payloadMax → bs.length = n.toNat → Claims.Holds s.unit.inp.pay 0 bs →
        exec (.setField .payload) s =
          .next { s with unit := { s.unit with seg := some { g with pay := bs }, code := .ok } })))

/-! Parsing -/

/-- 41_parse.md R140 to R143, R145, R146: PARSE of the header bytes b 0, b 1, … of the wire buffer, its data offset in bits 7:4 of byte
12. Nothing else changes, and no field is checked beyond the lengths. -/
def Obligations.ParseLoadsHeader : Prop :=
  decode 0x00000010 = .ok .parse ∧
    ∀ (s : State) (len : Half) (sa da : Word) (b : Nat → Byte) (d : Nat),
      s.unit.bufLen = some len → s.unit.inp.srcAddr = some sa → s.unit.inp.dstAddr = some da →
      len.toNat ≤ Config.bufCap → d = (b 12).toNat / 16 → 20 ≤ len.toNat → 4 * d ≤ len.toNat →
      (∀ x, x < max 20 (4 * d) → s.unit.buf.read x = some (b x)) →
      exec .parse s = .next { s with unit := { s.unit with
        seg := some { srcPort := (b 0 ++ b 1 : Half), dstPort := (b 2 ++ b 3 : Half),
                      seq := (b 4 ++ b 5 ++ b 6 ++ b 7 : Word), ack := (b 8 ++ b 9 ++ b 10 ++ b 11 : Word),
                      ctl := (b 12 ++ b 13 : Half), window := (b 14 ++ b 15 : Half), checksum := (b 16 ++ b 17 : Half),
                      urgent := (b 18 ++ b 19 : Half), opt := (List.range (4 * d - 20)).map (fun k => b (20 + k)),
                      pay := [], srcAddr := sa, dstAddr := da },
        res0 := some (BitVec.ofNat 32 (max 20 (4 * d))), code := .ok } }

/-- 60_exceptions.md R247, 41_parse.md R140, R144: what PARSE raises, in its own order. -/
def Obligations.ParseRaisesInOrder : Prop :=
  ∀ s : State,
    ((s.unit.bufLen = none ∨ s.unit.inp.srcAddr = none ∨ s.unit.inp.dstAddr = none) → Claims.Raises .parse s .operandUnset) ∧
    (∀ len : Half, s.unit.bufLen = some len → s.unit.inp.srcAddr.isSome → s.unit.inp.dstAddr.isSome →
      (Config.bufCap < len.toNat → Claims.Raises .parse s .illegalOperand) ∧
      (len.toNat ≤ Config.bufCap → len.toNat < 20 → Claims.Raises .parse s .parseTooShort) ∧
      (len.toNat ≤ Config.bufCap → 20 ≤ len.toNat → (∃ x, x < 20 ∧ s.unit.buf.read x = none) →
        Claims.Raises .parse s .operandUnset) ∧
      (∀ b12 : Byte, len.toNat ≤ Config.bufCap → 20 ≤ len.toNat → (∀ x, x < 20 → s.unit.buf.read x ≠ none) →
        s.unit.buf.read 12 = some b12 →
        (len.toNat < 4 * (b12.toNat / 16) → Claims.Raises .parse s .parseTooShort) ∧
        (4 * (b12.toNat / 16) ≤ len.toNat → (∃ x, 20 ≤ x ∧ x < 4 * (b12.toNat / 16) ∧ s.unit.buf.read x = none) →
          Claims.Raises .parse s .operandUnset)))

/-! Serialization -/

/-- 42_serialize.md R166, R167, R168, R171: SERIALIZE of a segment with a consistent layout into a large enough buffer. -/
def Obligations.SerializeEmitsSegment : Prop :=
  decode 0x00000020 = .ok .serialize ∧
    ∀ (s : State) (g : Segment) (cap : Half), s.unit.seg = some g → s.unit.bufLen = some cap → cap.toNat ≤ Config.bufCap →
      ConsistentLayout g → wireSize g ≤ cap.toNat →
      ∃ t, exec .serialize s = .next t ∧ Claims.Emitted s t g (dataOffset g.ctl)

/-- 42_serialize.md R166, R169, R170; 60_exceptions.md R247: what SERIALIZE raises, in order. -/
def Obligations.SerializeRaisesInOrder : Prop :=
  ∀ s : State,
    (s.unit.seg = none → Claims.Raises .serialize s .noSegment) ∧
    (∀ g, s.unit.seg = some g →
      (s.unit.bufLen = none → Claims.Raises .serialize s .operandUnset) ∧
      (∀ cap : Half, s.unit.bufLen = some cap →
        (Config.bufCap < cap.toNat → Claims.Raises .serialize s .illegalOperand) ∧
        (cap.toNat ≤ Config.bufCap → cap.toNat < 4 * (g.ctl.toNat / 0x1000) + g.pay.length →
          Claims.Raises .serialize s .bufferTooSmall) ∧
        (cap.toNat ≤ Config.bufCap → 4 * (g.ctl.toNat / 0x1000) + g.pay.length ≤ cap.toNat →
          4 * (g.ctl.toNat / 0x1000) ≠ 20 + pad4 g.opt.length → Claims.Raises .serialize s .layoutMismatch)))

/-- 42_serialize.md R172, R173, R174: SERIALIZE_FIXUP of any segment whose options fit, into a buffer large enough for the fixed-up
size, writes the recomputed offset (20 + pad4(SEG.opt_len)) / 4. -/
def Obligations.SerializeFixupEmitsSegment : Prop :=
  decode 0x00000021 = .ok .serializeFixup ∧
    ∀ (s : State) (g : Segment) (cap : Half) (dfx : BitVec 4), s.unit.seg = some g → s.unit.bufLen = some cap →
      cap.toNat ≤ Config.bufCap → g.opt.length ≤ 40 → dfx.toNat = (20 + pad4 g.opt.length) / 4 →
      4 * dfx.toNat + g.pay.length ≤ cap.toNat →
      5 ≤ dfx.toNat ∧ ∃ t, exec .serializeFixup s = .next t ∧ Claims.Emitted s t g dfx

/-- 42_serialize.md R172, R174; 60_exceptions.md R247: what SERIALIZE_FIXUP raises, in order; never LAYOUT_MISMATCH. -/
def Obligations.SerializeFixupRaisesInOrder : Prop :=
  ∀ s : State,
    (s.unit.seg = none → Claims.Raises .serializeFixup s .noSegment) ∧
    (∀ g, s.unit.seg = some g →
      (s.unit.bufLen = none → Claims.Raises .serializeFixup s .operandUnset) ∧
      (∀ cap : Half, s.unit.bufLen = some cap →
        (Config.bufCap < cap.toNat → Claims.Raises .serializeFixup s .illegalOperand) ∧
        (cap.toNat ≤ Config.bufCap → cap.toNat < 20 + pad4 g.opt.length + g.pay.length →
          Claims.Raises .serializeFixup s .bufferTooSmall))) ∧
    ∀ t, exec .serializeFixup s = .next t → t.unit.code ≠ .raised .layoutMismatch

/-- 42_serialize.md R177: for a consistent layout the two serialization commands do the same in every state, GET_SIZE gives the count
they return, and a capacity one below it raises BUFFER_TOO_SMALL. -/
def Obligations.SizesAgreeForConsistentLayout : Prop :=
  ∀ (s : State) (g : Segment), s.unit.seg = some g → ConsistentLayout g →
    exec .serialize s = exec .serializeFixup s ∧
    (∃ t, exec .getSize s = .next t ∧ t.unit.res0 = some (BitVec.ofNat 32 (wireSize g))) ∧
    (∀ t, exec .serialize s = .next t → t.unit.code = .ok → t.unit.res0 = some (BitVec.ofNat 32 (wireSize g))) ∧
    (∀ cap : Half, s.unit.bufLen = some cap → cap.toNat ≤ Config.bufCap → cap.toNat + 1 = wireSize g →
      Claims.Raises .serialize s .bufferTooSmall ∧ Claims.Raises .serializeFixup s .bufferTooSmall)

/-- 42_serialize.md R176 and R178: GET_SIZE and TAG; the size of a segment that fits its storage is at most 60 + PAYLOAD_MAX, so it fits
16 bits. -/
def Obligations.GetSizeAndTagResults : Prop :=
  Claims.Query .getSize 0x00000022 (fun g => BitVec.ofNat 32 (4 * (g.ctl.toNat / 0x1000) + g.pay.length)) ∧
    Claims.Query .tag 0x00000023 (fun _ => Config.tcpLayerTag) ∧
    ∀ g : Segment, SegmentGood g →
      4 * (g.ctl.toNat / 0x1000) + g.pay.length ≤ 60 + Config.payloadMax ∧ 60 + Config.payloadMax ≤ 65535

/-- 42_serialize.md R168, 20_memory.md R67: what serialization writes depends on the segment but not on SEG.checksum, nor on what BUF held
before. -/
def Obligations.SerializeIgnoresOldBufferAndChecksum : Prop :=
  ∀ (i : Instr) (s s' t t' : State) (g : Segment) (ck : Half), (i = .serialize ∨ i = .serializeFixup) →
    s.unit.seg = some g → s'.unit.seg = some { g with checksum := ck } → s.unit.bufLen = s'.unit.bufLen →
    g.opt.length ≤ 40 → exec i s = .next t → exec i s' = .next t' →
    t.unit.code = t'.unit.code ∧
      (t.unit.code = .ok → t.unit.res0 = t'.unit.res0 ∧
        ∀ n, t.unit.res0 = some (BitVec.ofNat 32 n) → n < 65536 → ∀ x, x < n → t.unit.buf.read x = t'.unit.buf.read x)

/-! Accessors, predicates and FORMAT -/

/-- 43_accessors.md R200 to R205: the six field readers. -/
def Obligations.ReadersReturnFields : Prop :=
  Claims.Query .getSrcPort 0x00000030 (fun g => BitVec.ofNat 32 g.srcPort.toNat) ∧
    Claims.Query .getDstPort 0x00000031 (fun g => BitVec.ofNat 32 g.dstPort.toNat) ∧
    Claims.Query .getSeq 0x00000032 (fun g => g.seq) ∧
    Claims.Query .getAck 0x00000033 (fun g => g.ack) ∧
    Claims.Query .getSrcAddr 0x00000034 (fun g => g.srcAddr) ∧
    Claims.Query .getDstAddr 0x00000035 (fun g => g.dstAddr)

/-- 43_accessors.md R207 and R208: GET_FIELD with each of the nine scalar selectors, and DATA_OFFSET, RESERVED and FLAGS, which extract
one sub-field of SEG.ctl. -/
def Obligations.GetFieldReturnsField : Prop :=
  Claims.GetsField .srcPort (fun g => BitVec.ofNat 32 g.srcPort.toNat) ∧
    Claims.GetsField .dstPort (fun g => BitVec.ofNat 32 g.dstPort.toNat) ∧
    Claims.GetsField .seq (fun g => g.seq) ∧
    Claims.GetsField .ack (fun g => g.ack) ∧
    Claims.GetsField .window (fun g => BitVec.ofNat 32 g.window.toNat) ∧
    Claims.GetsField .checksum (fun g => BitVec.ofNat 32 g.checksum.toNat) ∧
    Claims.GetsField .urgent (fun g => BitVec.ofNat 32 g.urgent.toNat) ∧
    Claims.GetsField .srcAddr (fun g => g.srcAddr) ∧
    Claims.GetsField .dstAddr (fun g => g.dstAddr) ∧
    Claims.GetsField .dataOffset (fun g => BitVec.ofNat 32 (g.ctl.toNat / 0x1000)) ∧
    Claims.GetsField .reserved (fun g => BitVec.ofNat 32 (g.ctl.toNat / 0x100 % 0x10)) ∧
    Claims.GetsField .flags (fun g => BitVec.ofNat 32 (g.ctl.toNat % 0x100))

/-- 43_accessors.md R209: GET_FIELD OPTIONS and PAYLOAD copy the bytes and the length into the operand bank and the length to RES0; bytes
beyond are unchanged, and nothing else changes but CODE. -/
def Obligations.GetFieldCopiesIntoBank : Prop :=
  (∀ (s : State) (g : Segment), s.unit.seg = some g → ∃ t, exec (.getField .options) s = .next t ∧
    t = { s with unit := { s.unit with
          inp := { s.unit.inp with opt := t.unit.inp.opt, optLen := some (BitVec.ofNat 8 g.opt.length) },
          res0 := some (BitVec.ofNat 32 g.opt.length), code := .ok } } ∧
    Claims.Holds t.unit.inp.opt 0 g.opt ∧
    ∀ x, g.opt.length ≤ x → t.unit.inp.opt.read x = s.unit.inp.opt.read x) ∧
  (∀ (s : State) (g : Segment), s.unit.seg = some g → ∃ t, exec (.getField .payload) s = .next t ∧
    t = { s with unit := { s.unit with
          inp := { s.unit.inp with pay := t.unit.inp.pay, payLen := some (BitVec.ofNat 16 g.pay.length) },
          res0 := some (BitVec.ofNat 32 g.pay.length), code := .ok } } ∧
    Claims.Holds t.unit.inp.pay 0 g.pay ∧
    ∀ x, g.pay.length ≤ x → t.unit.inp.pay.read x = s.unit.inp.pay.read x)

/-- 43_accessors.md R209: after GET_FIELD OPTIONS or PAYLOAD, SET_FIELD of the same selector leaves the segment unchanged. -/
def Obligations.GetThenSetFieldKeepsSegment : Prop :=
  ∀ (f : Fid) (s t r : State) (g : Segment), (f = .options ∨ f = .payload) → s.unit.seg = some g → SegmentGood g →
    exec (.getField f) s = .next t → exec (.setField f) t = .next r → r.unit.seg = some g ∧ r.unit.code = .ok

/-- 43_accessors.md R210 to R215: the five predicates, on their bits of SEG.ctl, and IS_RST_OR_FIN = IS_RST OR IS_FIN. -/
def Obligations.PredicatesTestFlagBits : Prop :=
  Claims.Query .isAck 0x00000040 (fun g => if g.ctl.toNat / 16 % 2 = 1 then 1 else 0) ∧
    Claims.Query .isRst 0x00000041 (fun g => if g.ctl.toNat / 4 % 2 = 1 then 1 else 0) ∧
    Claims.Query .isSyn 0x00000042 (fun g => if g.ctl.toNat / 2 % 2 = 1 then 1 else 0) ∧
    Claims.Query .isFin 0x00000043 (fun g => if g.ctl.toNat % 2 = 1 then 1 else 0) ∧
    Claims.Query .isRstOrFin 0x00000044
      (fun g => if g.ctl.toNat / 4 % 2 = 1 ∨ g.ctl.toNat % 2 = 1 then 1 else 0) ∧
    ∀ s a b c : State, exec .isRst s = .next a → exec .isFin s = .next b → exec .isRstOrFin s = .next c →
      ∀ x y z, s.unit.seg ≠ none → a.unit.res0 = some x → b.unit.res0 = some y → c.unit.res0 = some z → z = x ||| y

/-- 44_diagnostic.md R230: FORMAT writes the four-character summary, the ports and the layer tag, and changes nothing else but CODE;
without a segment it raises NO_SEGMENT. -/
def Obligations.FormatReturnsElements : Prop :=
  decode 0x00000050 = .ok .format ∧
    ∀ s : State,
      (∀ g, s.unit.seg = some g → exec .format s = .next { s with unit := { s.unit with
        res0 := some ((if g.ctl.getLsbD 4 then 0x41 else 0x2E : Byte) ++ (if g.ctl.getLsbD 2 then 0x52 else 0x2E : Byte) ++
          (if g.ctl.getLsbD 1 then 0x53 else 0x2E : Byte) ++ (if g.ctl.getLsbD 0 then 0x46 else 0x2E : Byte) : Word),
        res1 := some (BitVec.ofNat 32 (g.srcPort.toNat * 0x10000 + g.dstPort.toNat)),
        res2 := some Config.tcpLayerTag, code := .ok } }) ∧
      (s.unit.seg = none → Claims.Raises .format s .noSegment)

/-- 44_diagnostic.md R232: the nine rows of its table; the summary depends only on bits 4, 2, 1 and 0 of the flags, and tells any two
values of them apart, so it takes 16 values. -/
def Obligations.FormatSummaryTable : Prop :=
  (∀ c : Half, c.toNat % 0x100 = 0x00 → flagSummary c = 0x2E2E2E2E) ∧
    (∀ c : Half, c.toNat % 0x100 = 0x10 → flagSummary c = 0x412E2E2E) ∧
    (∀ c : Half, c.toNat % 0x100 = 0x12 → flagSummary c = 0x412E532E) ∧
    (∀ c : Half, c.toNat % 0x100 = 0x04 → flagSummary c = 0x2E522E2E) ∧
    (∀ c : Half, c.toNat % 0x100 = 0x14 → flagSummary c = 0x41522E2E) ∧
    (∀ c : Half, c.toNat % 0x100 = 0x11 → flagSummary c = 0x412E2E46) ∧
    (∀ c : Half, c.toNat % 0x100 = 0x05 → flagSummary c = 0x2E522E46) ∧
    (∀ c : Half, c.toNat % 0x100 = 0xFF → flagSummary c = 0x41525346) ∧
    (∀ c : Half, c.toNat % 0x100 = 0xEA → flagSummary c = 0x2E2E532E) ∧
    ∀ c d : Half, flagSummary c = flagSummary d ↔ c &&& 0x17 = d &&& 0x17

/-! Status codes -/

/-- 60_exceptions.md R244, the NO_SEGMENT column: a command that needs the segment raises NO_SEGMENT when SEG_VALID = 0, whatever else
holds, and the other commands never do. -/
def Obligations.NoSegmentExactlyWhenNeeded : Prop :=
  (∀ (i : Instr) (s : State), Claims.NeedsSegment i → s.unit.seg = none → Claims.Raises i s .noSegment) ∧
    ∀ (i : Instr) (s t : State), exec i s = .next t → t.unit.code = .raised .noSegment →
      Claims.NeedsSegment i ∧ s.unit.seg = none

/-- 60_exceptions.md R240, R243: every command, in every state, completes with one of the codes 0x00 to 0x07; one that ends with a code
other than OK has changed STATUS.CODE and ERR_SEEN and nothing else, and one that ends with OK leaves ERR_SEEN as it was. -/
def Obligations.RaiseChangesOnlyStatus : Prop :=
  ∀ (i : Instr) (s : State), ∃ t, exec i s = .next t ∧ (codeByte t.unit.code).toNat ≤ 7 ∧
    (∀ e, t.unit.code = .raised e →
      t = { s with unit := { s.unit with code := .raised e, errSeen := true } }) ∧
    (t.unit.code = .ok → t.unit.errSeen = s.unit.errSeen)

/-- 10_state.md R35, R43; 60_exceptions.md R251: no step clears ERR_SEEN or SEG_VALID of a unit but a reset of that unit. -/
def Obligations.StickyBitsClearedOnlyByReset : Prop :=
  ∀ (s t : State) (e : Event) (rest : List Event) (u : Nat), StateGood s → s.pending = e :: rest → e ≠ .reset u →
    step s = .next t →
    ((s.unitAt u).errSeen = true → (t.unitAt u).errSeen = true) ∧
    ((s.unitAt u).seg.isSome = true → (t.unitAt u).seg.isSome = true)

/-- 10_state.md R41: no step clears a defined-bit of a unit (of an operand register, an array byte, BUF_LEN or a result register) but a
reset of that unit. -/
def Obligations.DefinedBitsClearedOnlyByReset : Prop :=
  ∀ (s t : State) (e : Event) (rest : List Event) (u : Nat), StateGood s → s.pending = e :: rest → e ≠ .reset u →
    step s = .next t →
    (∀ r : HostReg, (readReg r (s.unitAt u)).isSome = true → (readReg r (t.unitAt u)).isSome = true) ∧
    (∀ (a : HostArray) (x : Nat), ((arrayMemory a (s.unitAt u)).read x).isSome = true →
      ((arrayMemory a (t.unitAt u)).read x).isSome = true)

/-! Frames -/

/-- The frame of the queries (42_serialize.md R176, R178; 43_accessors.md; 44_diagnostic.md R233): the segment, the operand bank, BUF,
BUF_LEN and the rest of the system are unchanged; RES1 and RES2 too, but for FORMAT. -/
def Obligations.QueryFrame : Prop :=
  ∀ (i : Instr) (s t : State), i ∈ Claims.pureQueries → exec i s = .next t →
    Claims.SystemFrame s t ∧ Claims.ArraysFrame s t ∧ t.unit.seg = s.unit.seg ∧ t.unit.inp = s.unit.inp ∧
      (i ≠ .format → t.unit.res1 = s.unit.res1 ∧ t.unit.res2 = s.unit.res2)

/-- The frame of the constructors and SET_FIELD (40_construction.md): only the segment and STATUS may change. -/
def Obligations.ConstructionFrame : Prop :=
  ∀ (i : Instr) (s t : State),
    (i = .newAck ∨ i = .newAckSyn ∨ i = .newRst ∨ i = .fromHeader ∨ ∃ f, i = .setField f) → exec i s = .next t →
    Claims.SystemFrame s t ∧ Claims.ArraysFrame s t ∧ t.unit.inp = s.unit.inp ∧ t.unit.res0 = s.unit.res0 ∧
      t.unit.res1 = s.unit.res1 ∧ t.unit.res2 = s.unit.res2

/-- 40_construction.md R126: SET_FIELD leaves every field but the selected one unchanged. -/
def Obligations.SetFieldLeavesOtherFields : Prop :=
  ∀ (f : Fid) (s t : State) (g h : Segment), s.unit.seg = some g → exec (.setField f) s = .next t → t.unit.seg = some h →
    (∀ k, k ≠ f → fieldWord k h = fieldWord k g) ∧ (f ≠ .options → h.opt = g.opt) ∧ (f ≠ .payload → h.pay = g.pay)

/-- The frame of PARSE (41_parse.md R140): only the segment, RES0 and STATUS may change; no byte of BUF is written. -/
def Obligations.ParseFrame : Prop :=
  ∀ s t : State, exec .parse s = .next t →
    Claims.SystemFrame s t ∧ Claims.ArraysFrame s t ∧ t.unit.inp = s.unit.inp ∧ t.unit.res1 = s.unit.res1 ∧
      t.unit.res2 = s.unit.res2

/-- 20_memory.md R65, 41_parse.md R142: what PARSE does depends on no byte of BUF at or beyond the header. -/
def Obligations.ParseReadsOnlyTheHeader : Prop :=
  ∀ (s s' t t' : State) (b12 : Byte), s.unit.buf.read 12 = some b12 →
    (∀ x, x < max 20 (4 * (b12.toNat / 16)) → s.unit.buf.read x = s'.unit.buf.read x) →
    s'.unit.bufLen = s.unit.bufLen → s'.unit.inp.srcAddr = s.unit.inp.srcAddr → s'.unit.inp.dstAddr = s.unit.inp.dstAddr →
    exec .parse s = .next t → exec .parse s' = .next t' →
    t.unit.code = t'.unit.code ∧ (t.unit.code = .ok → t.unit.seg = t'.unit.seg ∧ t.unit.res0 = t'.unit.res0)

/-- The frame of the serialization commands (42_serialize.md R166, R172): the segment, the operand bank, RES1, RES2 and the rest of the
system are unchanged, and every byte of BUF outside the bytes written, BUF[0..L-1], reads as before. -/
def Obligations.SerializeFrame : Prop :=
  ∀ (i : Instr) (s t : State), (i = .serialize ∨ i = .serializeFixup) → exec i s = .next t →
    Claims.SystemFrame s t ∧ t.unit.seg = s.unit.seg ∧ t.unit.inp = s.unit.inp ∧ t.unit.res1 = s.unit.res1 ∧
      t.unit.res2 = s.unit.res2 ∧
      (t.unit.code ≠ .ok → ∀ x, t.unit.buf.read x = s.unit.buf.read x) ∧
      (∀ g x, s.unit.seg = some g → i = .serialize → (serializedBytes g (dataOffset g.ctl)).length ≤ x →
        t.unit.buf.read x = s.unit.buf.read x) ∧
      (∀ g x, s.unit.seg = some g → i = .serializeFixup →
        (serializedBytes g (BitVec.ofNat 4 (fixupOffset g))).length ≤ x → t.unit.buf.read x = s.unit.buf.read x)

/-- The frame of GET_FIELD OPTIONS and PAYLOAD (43_accessors.md R209): the segment, BUF, RES1, RES2, the other operand registers and the
rest of the system are unchanged, and every byte of IN_OPT and IN_PAY outside the bytes copied reads as before. -/
def Obligations.GetFieldSequenceFrame : Prop :=
  ∀ (f : Fid) (s t : State), (f = .options ∨ f = .payload) → exec (.getField f) s = .next t →
    Claims.SystemFrame s t ∧ Claims.ScalarsFrame s t ∧ t.unit.seg = s.unit.seg ∧ t.unit.buf = s.unit.buf ∧
      t.unit.res1 = s.unit.res1 ∧ t.unit.res2 = s.unit.res2 ∧
      (f = .options → t.unit.inp.pay = s.unit.inp.pay ∧ t.unit.inp.payLen = s.unit.inp.payLen ∧
        ∀ g x, s.unit.seg = some g → g.opt.length ≤ x → t.unit.inp.opt.read x = s.unit.inp.opt.read x) ∧
      (f = .payload → t.unit.inp.opt = s.unit.inp.opt ∧ t.unit.inp.optLen = s.unit.inp.optLen ∧
        ∀ g x, s.unit.seg = some g → g.pay.length ≤ x → t.unit.inp.pay.read x = s.unit.inp.pay.read x)

/-! The host interface -/

/-- 10_state.md R37, R46, R48: a 32-bit write to a read-write register and a read of it give back the implemented low bits,
zero-extended; the write changes no array, segment, status or result, and the read changes nothing but what was read. -/
def Obligations.HostRegisterWriteThenRead : Prop :=
  ∀ (s : State) (off n : Nat) (v : Word) (rest : List Event), (off, n) ∈ Claims.rwRegisters →
    s.pending = .access s.sel (.write .w32 (BitVec.ofNat 18 off) v) ::
      .access s.sel (.read .w32 (BitVec.ofNat 18 off)) :: rest →
    ∃ t, step s = .next t ∧
      step t = .next { t with pending := rest, lastRead := some (.value (BitVec.ofNat 32 (v.toNat % 2 ^ n))) } ∧
      t.unit.seg = s.unit.seg ∧ t.unit.buf = s.unit.buf ∧ t.unit.inp.opt = s.unit.inp.opt ∧ t.unit.inp.pay = s.unit.inp.pay ∧
      statusWord t.unit = statusWord s.unit ∧ t.unit.res0 = s.unit.res0 ∧ t.unit.res1 = s.unit.res1 ∧
      t.unit.res2 = s.unit.res2 ∧
      ∀ r : HostReg, hostRegOffset r ≠ off → readReg r t.unit = readReg r s.unit

/-- 10_state.md R42, R43, R44, R47: a write to STATUS or a result register is ignored; CMD reads as 0; STATUS reads as CODE in bits 7:0,
SEG_VALID at bit 8, ERR_SEEN at bit 15 and zero elsewhere. -/
def Obligations.StatusAndReadOnlyRegisters : Prop :=
  (∀ (s : State) (off : Nat) (v : Word) (rest : List Event), off ∈ [0x04, 0x08, 0x0C, 0x10] →
    s.pending = .access s.sel (.write .w32 (BitVec.ofNat 18 off) v) :: rest → step s = .next { s with pending := rest }) ∧
  (∀ (s : State) (rest : List Event), s.pending = .access s.sel (.read .w32 0x00000) :: rest →
    step s = .next { s with pending := rest, lastRead := some (.value 0x00000000) }) ∧
  (∀ (s : State) (rest : List Event), s.pending = .access s.sel (.read .w32 0x00004) :: rest →
    ∃ w : Word, step s = .next { s with pending := rest, lastRead := some (.value w) } ∧
      w.toNat = (codeByte s.unit.code).toNat + (if s.unit.seg.isSome then 0x100 else 0) + (if s.unit.errSeen then 0x8000 else 0))

/-- 20_memory.md R66, 10_state.md R41: a host read changes nothing but what the host has read, and reading a register with Def = 0 returns
⊥, no number. -/
def Obligations.HostReadHasNoSideEffect : Prop :=
  (∀ (s t : State) (w : Width) (off : Offset) (rest : List Event), s.pending = .access s.sel (.read w off) :: rest →
    step s = .next t → t = { s with pending := rest, lastRead := t.lastRead }) ∧
  (∀ (s : State) (r : HostReg) (rest : List Event),
    s.pending = .access s.sel (.read .w32 (BitVec.ofNat 18 (hostRegOffset r))) :: rest → readReg r s.unit = none →
    step s = .next { s with pending := rest, lastRead := some .undefined })

/-- 1-, 2- and 4-byte host reads and writes of an array reach consecutive bytes in big-endian order; a read with an undefined byte is
undefined; a write leaves every other byte alone (20_memory.md section 1). How an 8- or 16-bit value stands on the 32-bit bus is not the
spec's but the model's choice, log 8: a narrow read is zero-extended, and a narrow write takes the low bits of the data. -/
def Obligations.HostArrayAccessIsBigEndian : Prop :=
  ∀ (s : State) (a : HostArray) (k : Nat) (w : Width) (rest : List Event), k % widthBytes w = 0 →
    k + widthBytes w ≤ arraySize a →
    (s.pending = .access s.sel (.read w (BitVec.ofNat 18 (arrayBase a + k))) :: rest →
      (∀ b0 b1 b2 b3 : Byte, w = .w32 → Claims.Holds (arrayMemory a s.unit) k [b0, b1, b2, b3] →
        step s = .next { s with pending := rest, lastRead := some (.value (b0 ++ b1 ++ b2 ++ b3 : Word)) }) ∧
      (∀ b0 b1 : Byte, w = .w16 → Claims.Holds (arrayMemory a s.unit) k [b0, b1] →
        step s = .next { s with pending := rest, lastRead := some (.value (BitVec.ofNat 32 (b0.toNat * 0x100 + b1.toNat))) }) ∧
      (∀ b0 : Byte, w = .w8 → (arrayMemory a s.unit).read k = some b0 →
        step s = .next { s with pending := rest, lastRead := some (.value (BitVec.ofNat 32 b0.toNat)) }) ∧
      ((∃ j, j < widthBytes w ∧ (arrayMemory a s.unit).read (k + j) = none) →
        step s = .next { s with pending := rest, lastRead := some .undefined })) ∧
    (∀ v : Word, s.pending = .access s.sel (.write w (BitVec.ofNat 18 (arrayBase a + k)) v) :: rest →
      ∃ t, step s = .next t ∧
        t = { s with pending := rest, unit := setArrayMemory a (arrayMemory a t.unit) s.unit } ∧
        (∀ j, j < widthBytes w → (arrayMemory a t.unit).read (k + j) = some (v.extractLsb' (8 * (widthBytes w - 1 - j)) 8)) ∧
        ∀ x, (x < k ∨ k + widthBytes w ≤ x) → (arrayMemory a t.unit).read x = (arrayMemory a s.unit).read x)

/-- 10_state.md R47, 20_memory.md R62: the host is stuck exactly at the accesses the rules refuse, and no step is ever refused for want of
a meaning. -/
def Obligations.StuckExactlyAtRefusedAccess : Prop :=
  (∀ (s : State) (w : Width) (off : Offset) (v : Word) (rest : List Event),
    (s.pending = .access s.sel (.read w off) :: rest ∨ s.pending = .access s.sel (.write w off v) :: rest) →
    ((∃ f, step s = .fault f) ↔ ¬ Claims.Permitted w off.toNat)) ∧
  ∀ (s : State) (r : Refusal), step s ≠ .refused r

/-! Reset, units and the invariant -/

/-- 10_state.md R51, 70_reset_and_hazards.md R271: right after reset every unit has SEG_VALID = 0, reads STATUS as 0x00000000, CMD as 0
and every other register as ⊥, and no byte of an array holds a value. -/
def Obligations.ResetState : Prop :=
  ∀ u : Nat, (State.reset.unitAt u).seg = none ∧ statusWord (State.reset.unitAt u) = 0x00000000 ∧
    (∀ r : HostReg, r ≠ .cmd → r ≠ .status → readReg r (State.reset.unitAt u) = none) ∧
    readReg .cmd (State.reset.unitAt u) = some 0x00000000 ∧
    ∀ (a : HostArray) (x : Nat), (arrayMemory a (State.reset.unitAt u)).read x = none

/-- 70_reset_and_hazards.md R270: a reset of unit u gives it the reset state and does not touch another unit. That it leaves what the
host last read is not the spec's but the model's choice, log 8. -/
def Obligations.ResetEventResetsOneUnit : Prop :=
  ∀ (s : State) (u : Nat) (rest : List Event), StateGood s → u < Config.numUnits → s.pending = .reset u :: rest →
    ∃ t, step s = .next t ∧ t.unitAt u = State.reset.unitAt u ∧ (∀ j, j ≠ u → t.unitAt j = s.unitAt j) ∧ t.pending = rest ∧
      t.lastRead = s.lastRead

/-- 60_exceptions.md R257: units share no state. An event of unit u changes no other unit, and what it does to unit u, to what the host
reads, and whether it is stuck depend on no other unit. The field `lastRead`, in which the last read stands, is the model's choice, log 8. -/
def Obligations.UnitsShareNoState : Prop :=
  ∀ (s s' : State) (e : Event) (rest : List Event), StateGood s → StateGood s' → s.pending = e :: rest →
    s'.pending = e :: rest → s'.unitAt (eventUnit e) = s.unitAt (eventUnit e) → s'.lastRead = s.lastRead →
    (∀ t, step s = .next t →
      (∀ j, j ≠ eventUnit e → t.unitAt j = s.unitAt j) ∧
      ∃ t', step s' = .next t' ∧ t'.unitAt (eventUnit e) = t.unitAt (eventUnit e) ∧ t'.lastRead = t.lastRead) ∧
    (∀ f, step s = .fault f → step s' = .fault f)

/-- Every step keeps the invariant (Safety.lean): the arrays in their one form and inside BUF_CAP, OPT_MAX and PAYLOAD_MAX, the segment
inside its storage, a raised code with ERR_SEEN set, and only units that exist held. -/
def Obligations.StepKeepsStateGood : Prop := ∀ s t : State, StateGood s → step s = .next t → StateGood t

/-- The invariant holds right after reset. -/
def Obligations.ResetIsGood : Prop := StateGood State.reset

/-- An event whose unit exists and whose access the rules permit has a step, in every good state: no command and no data stops the
machine. -/
def Obligations.PermittedEventHasStep : Prop :=
  ∀ (s : State) (e : Event) (rest : List Event), StateGood s → s.pending = e :: rest → EventPermitted e →
    ∃ t, step s = .next t ∧ t.pending = rest

/-! The checksum engine -/

/-- 42_serialize.md R164 (a). -/
def Obligations.Fold16ClosedForm : Prop :=
  fold16 0 = 0 ∧ ∀ s : Nat, 1 ≤ s → (fold16 s).toNat = (s - 1) % 65535 + 1

/-- 42_serialize.md R164 (b), and what holds of (d): the checksum is never 0xFFFF, it is 0x0000 exactly when the folded sum is 0xFFFF;
over a segment of at most 65535 bytes a 32-bit accumulator cannot overflow, and two rounds of the loop fold the sum. -/
def Obligations.ChecksumRangeAndAccumulator : Prop :=
  ∀ (sa da : Word) (bs : List Byte),
    tcpChecksum sa da bs ≠ 0xFFFF ∧
    (tcpChecksum sa da bs = 0x0000 ↔ fold16 (sum16 (pseudoHeader sa da bs.length ++ zeroChecksum bs)) = 0xFFFF) ∧
    (bs.length ≤ 65535 →
      sum16 (pseudoHeader sa da bs.length ++ zeroChecksum bs) < 2 ^ 32 ∧
      BitVec.ofNat 16 (foldRounds 2 (sum16 (pseudoHeader sa da bs.length ++ zeroChecksum bs))) =
        fold16 (sum16 (pseudoHeader sa da bs.length ++ zeroChecksum bs)))

/-- The bound 42_serialize.md R164 (d) states for the sum, "below 2^31". It is expected to FAIL: 65535 bytes of 0xFF with both addresses
0xFFFFFFFF sum to 2147712771, above 2^31 (log 16). -/
def Obligations.ChecksumSumBelowTwoPow31 : Prop :=
  ∀ (sa da : Word) (bs : List Byte), bs.length ≤ 65535 →
    sum16 (pseudoHeader sa da bs.length ++ zeroChecksum bs) < 2 ^ 31

/-- 42_serialize.md R164 (c): the receiver's check. With the checksum put at offsets 16 and 17, the folded sum over pseudo-header and
segment is 0xFFFF. -/
def Obligations.ReceiverCheckSucceeds : Prop :=
  ∀ (sa da : Word) (bs : List Byte), 18 ≤ bs.length →
    fold16 (sum16 (pseudoHeader sa da bs.length ++
      (bs.set 16 ((tcpChecksum sa da bs).extractLsb' 8 8)).set 17 ((tcpChecksum sa da bs).extractLsb' 0 8))) = 0xFFFF

/-- 42_serialize.md R165: flipping any single bit outside offsets 16 and 17 changes the recomputed checksum; flipping one inside does
not. -/
def Obligations.SingleBitErrorChangesChecksum : Prop :=
  ∀ (sa da : Word) (bs : List Byte) (k j : Nat), k < bs.length → j < 8 →
    (k ≠ 16 → k ≠ 17 →
      tcpChecksum sa da (bs.set k (bs.getD k 0 ^^^ ((1 : Byte) <<< j))) ≠ tcpChecksum sa da bs) ∧
    (k = 16 ∨ k = 17 →
      tcpChecksum sa da (bs.set k (bs.getD k 0 ^^^ ((1 : Byte) <<< j))) = tcpChecksum sa da bs)

/-! Round trips -/

/-- 41_parse.md R147: serialize a segment with a consistent layout, set BUF_LEN to the count returned and parse with the same addresses:
every field comes back but the payload, which is empty, and the checksum, which is the one serialization computed; an options
length that is no multiple of 4 comes back with its padding zeros. -/
def Obligations.ParseAfterSerialize : Prop :=
  ∀ (i : Instr) (s t : State) (g : Segment), (i = .serialize ∨ i = .serializeFixup) → s.unit.seg = some g →
    ConsistentLayout g → exec i s = .next t → t.unit.code = .ok →
    ∃ (r : State) (ck : Half), exec .parse (Claims.readyToParse t (wireSize g) g.srcAddr g.dstAddr) = .next r ∧
      r.unit.code = .ok ∧
      t.unit.buf.read 16 = some (ck.extractLsb' 8 8) ∧ t.unit.buf.read 17 = some (ck.extractLsb' 0 8) ∧
      r.unit.seg = some { g with checksum := ck, pay := [],
                                 opt := g.opt ++ List.replicate (pad4 g.opt.length - g.opt.length) 0x00 }

/-- 42_serialize.md R179: with an options length that is a multiple of 4 and no payload, serializing, parsing back and serializing again
writes byte-identical output. -/
def Obligations.ReserializeIsIdentical : Prop :=
  ∀ (s t r q : State) (g : Segment), s.unit.seg = some g → ConsistentLayout g → g.opt.length % 4 = 0 → g.pay = [] →
    exec .serialize s = .next t → t.unit.code = .ok →
    exec .parse (Claims.readyToParse t (wireSize g) g.srcAddr g.dstAddr) = .next r → exec .serialize r = .next q →
    q.unit.code = .ok ∧ q.unit.res0 = t.unit.res0 ∧ ∀ x, q.unit.buf.read x = t.unit.buf.read x

/-! Assembler -/

/-- 30_encoding.md R88, for ports p and q of 16 bits (the model's choice, log 22): the expansion of NEW_RST_ACK, run in any state, leaves an RST+ACK segment with all other fields as NEW_RST leaves
them, and STATUS.CODE = OK. -/
def Obligations.NewRstAckProgram : Prop :=
  ∀ (s : State) (a b sq ak : Word) (p q : Half), s.pending = assemble s.sel (asmNewRstAck a b p q sq ak) →
    ∃ t : State, Host.Core.run Sys2Proof.core 9 s = .next t ∧ t.pending = [] ∧ t.unit.code = .ok ∧
      t.unit.seg = some { srcAddr := a, dstAddr := b, srcPort := p, dstPort := q, seq := sq, ack := ak, ctl := 0x5014,
                          window := 0xFFFF, checksum := 0x0000, urgent := 0x0000, opt := [], pay := [] }

/-- 30_encoding.md R88: the expansion of SET_OPTIONS, run with a segment held, makes the given bytes its options. That a list of no
bytes is allowed is not the spec's but the model's choice, log 23. -/
def Obligations.SetOptionsProgram : Prop :=
  ∀ (s : State) (g : Segment) (bs : List Byte), s.unit.seg = some g → bs.length ≤ 40 →
    s.pending = assemble s.sel (asmSetOptions bs) →
    ∃ t : State, Host.Core.run Sys2Proof.core (bs.length + 2) s = .next t ∧ t.pending = [] ∧ t.unit.code = .ok ∧
      t.unit.seg = some { g with opt := bs }
end

