-- ==== Sys2Proof/Laws/Memory.lean ====
section
/-! SUPPORT. The laws of the byte arrays and of lists by rising key: a read after a write, what a write leaves alone, the one form
kept, and what reading and writing consecutive bytes gives. -/

namespace Sys2Proof.Machine

section Assoc
variable {α : Type} {k j : Nat} {v : α} {l : List (Nat × α)}

@[simp] theorem assocGet_nil : assocGet k ([] : List (Nat × α)) = none := rfl

theorem assocGet_cons (c : Nat × α) (rest : List (Nat × α)) :
    assocGet k (c :: rest) = if c.1 = k then some c.2 else assocGet k rest := rfl

/-- Below every listed key nothing is listed. -/
theorem assocGet_none_of_lt (h : ∀ c ∈ l, k < c.1) : assocGet k l = none := by
  induction l with
  | nil => rfl
  | cons c rest ih =>
    have hc : k < c.1 := h c (by simp)
    rw [assocGet_cons, if_neg (by omega)]
    exact ih fun d hd => h d (by simp [hd])

theorem assocGet_put_same : assocGet k (assocPut k v l) = some v := by
  induction l with
  | nil => simp [assocPut, assocGet]
  | cons c rest ih =>
    simp only [assocPut]
    split
    · simp [assocGet]
    · split
      · simp [assocGet]
      · rw [assocGet_cons, if_neg (by omega), ih]

theorem assocGet_put_other (h : j ≠ k) : assocGet j (assocPut k v l) = assocGet j l := by
  induction l with
  | nil => simp [assocPut, assocGet, Ne.symm h]
  | cons c rest ih =>
    simp only [assocPut]
    split
    · rw [assocGet_cons, if_neg (Ne.symm h)]
    · split
      · next hk => rw [assocGet_cons, if_neg (Ne.symm h), assocGet_cons, if_neg (by omega)]
      · rw [assocGet_cons, assocGet_cons, ih]

theorem mem_assocPut {c : Nat × α} (h : c ∈ assocPut k v l) : c = (k, v) ∨ c ∈ l := by
  induction l with
  | nil => simpa [assocPut] using h
  | cons d rest ih =>
    simp only [assocPut] at h
    split at h
    · simpa using h
    · split at h
      · rcases List.mem_cons.1 h with h | h
        · exact .inl h
        · exact .inr (by simp [h])
      · rcases List.mem_cons.1 h with h | h
        · exact .inr (by simp [h])
        · rcases ih h with h | h
          · exact .inl h
          · exact .inr (by simp [h])

theorem assocPut_rising (h : l.Pairwise fun c d => c.1 < d.1) : (assocPut k v l).Pairwise fun c d => c.1 < d.1 := by
  induction l with
  | nil => simp [assocPut]
  | cons c rest ih =>
    obtain ⟨hc, hr⟩ := List.pairwise_cons.1 h
    simp only [assocPut]
    split
    · next hk =>
      refine List.pairwise_cons.2 ⟨fun d hd => ?_, h⟩
      rcases List.mem_cons.1 hd with rfl | hd
      · exact hk
      · exact Nat.lt_trans hk (hc d hd)
    · split
      · next hk => exact List.pairwise_cons.2 ⟨fun d hd => hk ▸ hc d hd, hr⟩
      · refine List.pairwise_cons.2 ⟨fun d hd => ?_, ih hr⟩
        rcases mem_assocPut hd with rfl | hd
        · show c.1 < k; omega
        · exact hc d hd

theorem mem_assocDrop {c : Nat × α} (h : c ∈ assocDrop k l) : c ∈ l := by
  induction l with
  | nil => simp [assocDrop] at h
  | cons d rest ih =>
    simp only [assocDrop] at h
    split at h
    · simp [h]
    · rcases List.mem_cons.1 h with h | h
      · simp [h]
      · simp [ih h]

theorem assocDrop_rising (h : l.Pairwise fun c d => c.1 < d.1) : (assocDrop k l).Pairwise fun c d => c.1 < d.1 := by
  induction l with
  | nil => simp [assocDrop]
  | cons c rest ih =>
    obtain ⟨hc, hr⟩ := List.pairwise_cons.1 h
    simp only [assocDrop]
    split
    · exact hr
    · exact List.pairwise_cons.2 ⟨fun d hd => hc d (mem_assocDrop hd), ih hr⟩

theorem assocGet_drop_other (h : j ≠ k) : assocGet j (assocDrop k l) = assocGet j l := by
  induction l with
  | nil => rfl
  | cons c rest ih =>
    simp only [assocDrop]
    split
    · next hk => rw [assocGet_cons, if_neg (by omega)]
    · rw [assocGet_cons, assocGet_cons, ih]

/-- In a list by rising key, what was dropped is listed no more. -/
theorem assocGet_drop_same (h : l.Pairwise fun c d => c.1 < d.1) : assocGet k (assocDrop k l) = none := by
  induction l with
  | nil => rfl
  | cons c rest ih =>
    obtain ⟨hc, hr⟩ := List.pairwise_cons.1 h
    simp only [assocDrop]
    split
    · next hk => exact assocGet_none_of_lt fun d hd => hk ▸ hc d hd
    · next hk => rw [assocGet_cons, if_neg hk, ih hr]

/-- In a list by rising key, no entry for a dropped key is left. -/
theorem ne_of_mem_assocDrop (h : l.Pairwise fun c d => c.1 < d.1) {c : Nat × α} (hc : c ∈ assocDrop k l) : c.1 ≠ k := by
  induction l with
  | nil => simp [assocDrop] at hc
  | cons d rest ih =>
    obtain ⟨hd, hr⟩ := List.pairwise_cons.1 h
    simp only [assocDrop] at hc
    split at hc
    · next hk => have := hd c hc; omega
    · rcases List.mem_cons.1 hc with rfl | hc
      · assumption
      · exact ih hr hc

/-- In a list by rising key, an entry is what its key reads as. -/
theorem mem_of_assocGet (h : assocGet k l = some v) : (k, v) ∈ l := by
  induction l with
  | nil => simp at h
  | cons c rest ih =>
    rw [assocGet_cons] at h
    split at h
    · next hk =>
      have : c = (k, v) := Prod.ext hk (by simpa using h)
      simp [this]
    · simp [ih h]

end Assoc

variable {m : Memory} {a x n : Nat} {b : Byte} {bs : List Byte}

@[simp] theorem read_nil : Memory.read [] x = none := rfl

@[simp] theorem read_write_same : (m.write a b).read a = some b := assocGet_put_same

theorem read_write_other (h : x ≠ a) : (m.write a b).read x = m.read x := assocGet_put_other h

theorem wf_write (h : m.wf) : (m.write a b).wf := assocPut_rising h

theorem below_write (h : m.below n) (ha : a < n) : (m.write a b).below n := fun c hc => by
  rcases mem_assocPut hc with rfl | hc
  · exact ha
  · exact h c hc

theorem wf_writeBytes (h : m.wf) : (m.writeBytes a bs).wf := by
  induction bs generalizing m a with
  | nil => exact h
  | cons b bs ih => exact ih (wf_write h)

theorem below_writeBytes (h : m.below n) (ha : a + bs.length ≤ n) : (m.writeBytes a bs).below n := by
  induction bs generalizing m a with
  | nil => exact h
  | cons b bs ih =>
    have hl : (b :: bs).length = bs.length + 1 := rfl
    exact ih (below_write h (by omega)) (by omega)

theorem good_nil : MemoryGood [] n := ⟨List.Pairwise.nil, fun _ h => by simp at h⟩

theorem good_writeBytes (h : MemoryGood m n) (ha : a + bs.length ≤ n) : MemoryGood (m.writeBytes a bs) n :=
  ⟨wf_writeBytes h.rising, below_writeBytes h.inside ha⟩

/-- Everything a write of consecutive bytes does: inside the range byte x is the byte written, outside it is what it was. -/
theorem read_writeBytes (m : Memory) (a : Nat) (bs : List Byte) (x : Nat) :
    (m.writeBytes a bs).read x = if a ≤ x ∧ x < a + bs.length then bs[x - a]? else m.read x := by
  induction bs generalizing m a with
  | nil => rw [Memory.writeBytes, if_neg (by simp only [List.length_nil]; omega)]
  | cons b bs ih =>
    rw [Memory.writeBytes, ih]
    have hl : (b :: bs).length = bs.length + 1 := rfl
    by_cases hx : x = a
    · subst hx
      rw [if_neg (by omega), read_write_same, if_pos (by omega)]
      simp
    · by_cases hr : a + 1 ≤ x ∧ x < a + 1 + bs.length
      · rw [if_pos hr, if_pos (by omega), show x - a = (x - (a + 1)) + 1 by omega, List.getElem?_cons_succ]
      · rw [if_neg hr, if_neg (by omega), read_write_other hx]

/-- Outside the bytes written, every byte reads as before. -/
theorem read_writeBytes_outside (h : x < a ∨ a + bs.length ≤ x) : (m.writeBytes a bs).read x = m.read x := by
  rw [read_writeBytes, if_neg (by omega)]

/-- Reading n bytes succeeds exactly when each of them holds a value, and gives them in order. -/
theorem readBytes_eq_some : m.readBytes a n = some bs ↔ bs.length = n ∧ ∀ i, i < n → m.read (a + i) = bs[i]? := by
  induction n generalizing a bs with
  | zero =>
    rw [Memory.readBytes]
    constructor
    · rintro ⟨rfl⟩; simp
    · rintro ⟨h, -⟩; rw [List.length_eq_zero_iff.1 h]
  | succ n ih =>
    rw [Memory.readBytes]
    constructor
    · intro h
      split at h
      · next b bs' hb hbs =>
        obtain rfl : b :: bs' = bs := by simpa using h
        obtain ⟨hlen, hrd⟩ := ih.1 hbs
        refine ⟨by simp [hlen], fun i hi => ?_⟩
        cases i with
        | zero => simpa using hb
        | succ i => rw [show a + (i + 1) = a + 1 + i by omega, hrd i (by omega)]; simp
      · simp at h
    · rintro ⟨hlen, hrd⟩
      cases bs with
      | nil => simp at hlen
      | cons b bs' =>
        have h0 : m.read a = some b := by simpa using hrd 0 (by omega)
        have ht : m.readBytes (a + 1) n = some bs' := ih.2 ⟨by simpa using hlen, fun i hi => by
          have := hrd (i + 1) (by omega)
          rw [show a + (i + 1) = a + 1 + i by omega] at this
          simpa using this⟩
        rw [h0, ht]

/-- Reading n bytes fails exactly when one of them holds no value. -/
theorem readBytes_eq_none : m.readBytes a n = none ↔ ∃ i, i < n ∧ m.read (a + i) = none := by
  induction n generalizing a with
  | zero => simp [Memory.readBytes]
  | succ n ih =>
    rw [Memory.readBytes]
    constructor
    · intro h
      by_cases h0 : m.read a = none
      · exact ⟨0, by omega, h0⟩
      · cases ht : m.readBytes (a + 1) n with
        | none =>
          obtain ⟨i, hi, hn⟩ := ih.1 ht
          exact ⟨i + 1, by omega, by rw [show a + (i + 1) = a + 1 + i by omega]; exact hn⟩
        | some bs =>
          obtain ⟨b, hb⟩ := Option.ne_none_iff_exists'.1 h0
          rw [hb, ht] at h
          simp at h
    · rintro ⟨i, hi, hn⟩
      cases i with
      | zero => rw [show m.read a = none from hn]
      | succ i =>
        rw [show a + (i + 1) = a + 1 + i by omega] at hn
        rw [ih.2 ⟨i, by omega, hn⟩]
        split <;> simp_all

theorem readBytes_length (h : m.readBytes a n = some bs) : bs.length = n := (readBytes_eq_some.1 h).1

/-- The bytes just written read back. -/
theorem readBytes_writeBytes_same : (m.writeBytes a bs).readBytes a bs.length = some bs :=
  readBytes_eq_some.2 ⟨rfl, fun i hi => by rw [read_writeBytes, if_pos (by omega), show a + i - a = i by omega]⟩

/-- Inside a write, a part of the bytes written reads back. -/
theorem readBytes_writeBytes_part {i : Nat} (h : i + n ≤ bs.length) :
    (m.writeBytes a bs).readBytes (a + i) n = some ((bs.drop i).take n) :=
  readBytes_eq_some.2 ⟨by simp; omega, fun k hk => by
    rw [read_writeBytes, if_pos (by omega), show a + i + k - a = i + k by omega]
    simp [List.getElem?_drop, hk]⟩

end Sys2Proof.Machine
end

