-- ==== Sys2Proof/Laws/State.lean ====
section
/-! SUPPORT. One lemma per field per named update of the state, so that no later proof unfolds a record update. -/

namespace Sys2Proof.Machine

@[simp] theorem raise_seg (e : Cause) (u : CodecUnit) : (raise e u).seg = u.seg := rfl
@[simp] theorem raise_inp (e : Cause) (u : CodecUnit) : (raise e u).inp = u.inp := rfl
@[simp] theorem raise_buf (e : Cause) (u : CodecUnit) : (raise e u).buf = u.buf := rfl
@[simp] theorem raise_bufLen (e : Cause) (u : CodecUnit) : (raise e u).bufLen = u.bufLen := rfl
@[simp] theorem raise_code (e : Cause) (u : CodecUnit) : (raise e u).code = .raised e := rfl
@[simp] theorem raise_errSeen (e : Cause) (u : CodecUnit) : (raise e u).errSeen = true := rfl
@[simp] theorem raise_res0 (e : Cause) (u : CodecUnit) : (raise e u).res0 = u.res0 := rfl
@[simp] theorem raise_res1 (e : Cause) (u : CodecUnit) : (raise e u).res1 = u.res1 := rfl
@[simp] theorem raise_res2 (e : Cause) (u : CodecUnit) : (raise e u).res2 = u.res2 := rfl

@[simp] theorem markOk_seg (u : CodecUnit) : (markOk u).seg = u.seg := rfl
@[simp] theorem markOk_inp (u : CodecUnit) : (markOk u).inp = u.inp := rfl
@[simp] theorem markOk_buf (u : CodecUnit) : (markOk u).buf = u.buf := rfl
@[simp] theorem markOk_bufLen (u : CodecUnit) : (markOk u).bufLen = u.bufLen := rfl
@[simp] theorem markOk_code (u : CodecUnit) : (markOk u).code = .ok := rfl
@[simp] theorem markOk_errSeen (u : CodecUnit) : (markOk u).errSeen = u.errSeen := rfl
@[simp] theorem markOk_res0 (u : CodecUnit) : (markOk u).res0 = u.res0 := rfl
@[simp] theorem markOk_res1 (u : CodecUnit) : (markOk u).res1 = u.res1 := rfl
@[simp] theorem markOk_res2 (u : CodecUnit) : (markOk u).res2 = u.res2 := rfl

@[simp] theorem setRes0_seg (v : Word) (u : CodecUnit) : (setRes0 v u).seg = u.seg := rfl
@[simp] theorem setRes0_inp (v : Word) (u : CodecUnit) : (setRes0 v u).inp = u.inp := rfl
@[simp] theorem setRes0_buf (v : Word) (u : CodecUnit) : (setRes0 v u).buf = u.buf := rfl
@[simp] theorem setRes0_bufLen (v : Word) (u : CodecUnit) : (setRes0 v u).bufLen = u.bufLen := rfl
@[simp] theorem setRes0_code (v : Word) (u : CodecUnit) : (setRes0 v u).code = u.code := rfl
@[simp] theorem setRes0_errSeen (v : Word) (u : CodecUnit) : (setRes0 v u).errSeen = u.errSeen := rfl
@[simp] theorem setRes0_res0 (v : Word) (u : CodecUnit) : (setRes0 v u).res0 = some v := rfl
@[simp] theorem setRes0_res1 (v : Word) (u : CodecUnit) : (setRes0 v u).res1 = u.res1 := rfl
@[simp] theorem setRes0_res2 (v : Word) (u : CodecUnit) : (setRes0 v u).res2 = u.res2 := rfl

@[simp] theorem loadSegment_seg (g : Segment) (u : CodecUnit) : (loadSegment g u).seg = some g := rfl
@[simp] theorem loadSegment_inp (g : Segment) (u : CodecUnit) : (loadSegment g u).inp = u.inp := rfl
@[simp] theorem loadSegment_buf (g : Segment) (u : CodecUnit) : (loadSegment g u).buf = u.buf := rfl
@[simp] theorem loadSegment_bufLen (g : Segment) (u : CodecUnit) : (loadSegment g u).bufLen = u.bufLen := rfl
@[simp] theorem loadSegment_code (g : Segment) (u : CodecUnit) : (loadSegment g u).code = u.code := rfl
@[simp] theorem loadSegment_errSeen (g : Segment) (u : CodecUnit) : (loadSegment g u).errSeen = u.errSeen := rfl
@[simp] theorem loadSegment_res0 (g : Segment) (u : CodecUnit) : (loadSegment g u).res0 = u.res0 := rfl
@[simp] theorem loadSegment_res1 (g : Segment) (u : CodecUnit) : (loadSegment g u).res1 = u.res1 := rfl
@[simp] theorem loadSegment_res2 (g : Segment) (u : CodecUnit) : (loadSegment g u).res2 = u.res2 := rfl

@[simp] theorem setUnit_unit (s : State) (u : CodecUnit) : (s.setUnit u).unit = u := rfl
@[simp] theorem setUnit_sel (s : State) (u : CodecUnit) : (s.setUnit u).sel = s.sel := rfl
@[simp] theorem setUnit_parked (s : State) (u : CodecUnit) : (s.setUnit u).parked = s.parked := rfl
@[simp] theorem setUnit_pending (s : State) (u : CodecUnit) : (s.setUnit u).pending = s.pending := rfl
@[simp] theorem setUnit_lastRead (s : State) (u : CodecUnit) : (s.setUnit u).lastRead = s.lastRead := rfl

@[simp] theorem setUnit_setUnit (s : State) (u v : CodecUnit) : (s.setUnit u).setUnit v = s.setUnit v := rfl
@[simp] theorem setUnit_self (s : State) : s.setUnit s.unit = s := rfl

@[simp] theorem unitReset_seg : CodecUnit.reset.seg = none := rfl
@[simp] theorem unitReset_inp : CodecUnit.reset.inp = OperandBank.reset := rfl
@[simp] theorem unitReset_buf : CodecUnit.reset.buf = [] := rfl
@[simp] theorem unitReset_bufLen : CodecUnit.reset.bufLen = none := rfl
@[simp] theorem unitReset_code : CodecUnit.reset.code = .ok := rfl
@[simp] theorem unitReset_errSeen : CodecUnit.reset.errSeen = false := rfl
@[simp] theorem unitReset_res0 : CodecUnit.reset.res0 = none := rfl
@[simp] theorem unitReset_res1 : CodecUnit.reset.res1 = none := rfl
@[simp] theorem unitReset_res2 : CodecUnit.reset.res2 = none := rfl
@[simp] theorem stateReset_unit : State.reset.unit = CodecUnit.reset := rfl
@[simp] theorem stateReset_sel : State.reset.sel = 0 := rfl
@[simp] theorem stateReset_parked : State.reset.parked = [] := rfl
@[simp] theorem stateReset_pending : State.reset.pending = [] := rfl
@[simp] theorem stateReset_lastRead : State.reset.lastRead = none := rfl
@[simp] theorem bankReset_srcAddr : OperandBank.reset.srcAddr = none := rfl
@[simp] theorem bankReset_dstAddr : OperandBank.reset.dstAddr = none := rfl
@[simp] theorem bankReset_srcPort : OperandBank.reset.srcPort = none := rfl
@[simp] theorem bankReset_dstPort : OperandBank.reset.dstPort = none := rfl
@[simp] theorem bankReset_seq : OperandBank.reset.seq = none := rfl
@[simp] theorem bankReset_ack : OperandBank.reset.ack = none := rfl
@[simp] theorem bankReset_ctl : OperandBank.reset.ctl = none := rfl
@[simp] theorem bankReset_window : OperandBank.reset.window = none := rfl
@[simp] theorem bankReset_checksum : OperandBank.reset.checksum = none := rfl
@[simp] theorem bankReset_urgent : OperandBank.reset.urgent = none := rfl
@[simp] theorem bankReset_optLen : OperandBank.reset.optLen = none := rfl
@[simp] theorem bankReset_payLen : OperandBank.reset.payLen = none := rfl
@[simp] theorem bankReset_opt : OperandBank.reset.opt = [] := rfl
@[simp] theorem bankReset_pay : OperandBank.reset.pay = [] := rfl

end Sys2Proof.Machine
end

