-- ==== Sys2Proof/Laws/Ops.lean ====
section
/-! SUPPORT. What each shared operation can do, said once: completing a command, a command that needs the segment, a query, and
turning to another unit. -/

namespace Sys2Proof.Machine

variable {c : Command} {s t : State} {u v : CodecUnit} {e : Cause} {g : Segment}

/-- A command that succeeds ends with its writes and STATUS.CODE = OK. -/
theorem complete_ok (h : c s.unit = .ok u) : complete c s = .next (s.setUnit (markOk u)) := by
  simp only [complete, h]

/-- A command that raises ends with `raise` on the unit as it was. -/
theorem complete_error (h : c s.unit = .error e) : complete c s = .next (s.setUnit (raise e s.unit)) := by
  simp only [complete, h]

/-- A command always ends in a next state, by one of these two ways. -/
theorem complete_cases (h : complete c s = .next t) :
    (∃ u, c s.unit = .ok u ∧ t = s.setUnit (markOk u)) ∨ (∃ e, c s.unit = .error e ∧ t = s.setUnit (raise e s.unit)) := by
  cases hc : c s.unit with
  | ok u => rw [complete_ok hc] at h; cases h; exact .inl ⟨u, rfl, rfl⟩
  | error e => rw [complete_error hc] at h; cases h; exact .inr ⟨e, rfl, rfl⟩

theorem needSegment_none {k : Segment → Command} (h : u.seg = none) : needSegment k u = .error .noSegment := by
  simp only [needSegment, h]

theorem needSegment_some {k : Segment → Command} (h : u.seg = some g) : needSegment k u = k g u := by
  simp only [needSegment, h]

/-- Everything a query does. -/
theorem query_eq (f : Segment → Word) (u : CodecUnit) :
    query f u = match u.seg with
      | none => .error .noSegment
      | some g => .ok (setRes0 (f g) u) := rfl

/-- A query with a segment: RES0 is the result, STATUS.CODE is OK, nothing else changes. -/
theorem complete_query_some {f : Segment → Word} (h : s.unit.seg = some g) :
    complete (query f) s = .next (s.setUnit { s.unit with res0 := some (f g), code := .ok }) := by
  rw [complete_ok (u := setRes0 (f g) s.unit) (by simp only [query_eq, h])]
  rfl

/-- A query without a segment raises NO_SEGMENT. -/
theorem complete_query_none {f : Segment → Word} (h : s.unit.seg = none) :
    complete (query f) s = .next (s.setUnit (raise .noSegment s.unit)) :=
  complete_error (by simp only [query_eq, h])

/-- A unit that is not being accessed reads the same after another unit is put aside. -/
theorem parkedUnit_park_other {l : List (Nat × CodecUnit)} {i j : Nat} {x : CodecUnit} (h : j ≠ i) :
    parkedUnit (parkUnit i x l) j = parkedUnit l j := by
  unfold parkedUnit parkUnit
  split
  · rw [assocGet_drop_other h]
  · rw [assocGet_put_other h]

/-- A unit put aside is what its index reads as. -/
theorem parkedUnit_park_same {l : List (Nat × CodecUnit)} {i : Nat} {x : CodecUnit}
    (hl : l.Pairwise fun p q => p.1 < q.1) : parkedUnit (parkUnit i x l) i = x := by
  unfold parkedUnit parkUnit
  split
  · next hx => rw [assocGet_drop_same hl, hx]; rfl
  · rw [assocGet_put_same]; rfl

/-- Everything turning to a unit does: it is the one accessed, and every unit's state is what it was. -/
theorem selectUnit_spec {i : Nat} (hl : s.parked.Pairwise fun p q => p.1 < q.1) (h : selectUnit i s = some t) :
    t.sel = i ∧ t.unit = s.unitAt i ∧ t.pending = s.pending ∧ t.lastRead = s.lastRead ∧
      ∀ j, t.unitAt j = s.unitAt j := by
  unfold selectUnit at h
  split at h
  · next hi =>
    obtain rfl : s = t := by simpa using h
    exact ⟨hi.symm, by simp [State.unitAt, hi], rfl, rfl, fun _ => rfl⟩
  · next hi =>
    split at h
    · obtain rfl := (Option.some.inj h)
      refine ⟨rfl, by simp [State.unitAt, hi], rfl, rfl, fun j => ?_⟩
      simp only [State.unitAt]
      by_cases hj : j = i
      · subst hj; simp [hi]
      · by_cases hs : j = s.sel
        · subst hs; simp only [if_neg hj]
          exact parkedUnit_park_same (assocDrop_rising hl)
        · simp only [if_neg hj, if_neg hs]
          rw [parkedUnit_park_other hs]
          unfold parkedUnit
          rw [assocGet_drop_other hj]
    · simp at h

/-- Turning to a unit is refused exactly for a unit that is neither the one accessed nor one that exists. -/
theorem selectUnit_none {i : Nat} : selectUnit i s = none ↔ i ≠ s.sel ∧ Config.numUnits ≤ i := by
  unfold selectUnit
  split
  · simp_all
  · split <;> simp_all

/-- Replacing the state of the unit accessed leaves every other unit alone. -/
theorem unitAt_setUnit {i : Nat} : (s.setUnit u).unitAt i = if i = s.sel then u else s.unitAt i := by
  unfold State.unitAt
  by_cases h : i = s.sel <;> simp [h]

end Sys2Proof.Machine
end

