-- ==== Sys2Proof/Laws/Fields.lean ====
section
/-! SUPPORT. The laws of the packed offset/reserved/flags word, of big-endian byte order, and of the lengths of the serialized
parts. -/

namespace Sys2Proof.Machine

/-- A concatenation of two 8-bit values at bit i. -/
theorem getLsbD_byte_append (x y : Byte) (i : Nat) :
    (x ++ y : Half).getLsbD i = if i < 8 then y.getLsbD i else x.getLsbD (i - 8) :=
  BitVec.getLsbD_append (x := x) (y := y)

theorem getLsbD_packCtl (d r : BitVec 4) (f : Byte) (i : Nat) :
    (packCtl d r f).getLsbD i =
      if i < 8 then f.getLsbD i else if i - 8 < 4 then r.getLsbD (i - 8) else d.getLsbD (i - 8 - 4) := by
  unfold packCtl
  rw [show (d ++ r ++ f : Half).getLsbD i = if i < 8 then f.getLsbD i else (d ++ r).getLsbD (i - 8) from
    BitVec.getLsbD_append (x := d ++ r) (y := f)]
  split
  · rfl
  · exact BitVec.getLsbD_append (x := d) (y := r)

@[simp] theorem dataOffset_packCtl (d r : BitVec 4) (f : Byte) : dataOffset (packCtl d r f) = d := by
  apply BitVec.eq_of_getLsbD_eq
  intro i hi
  simp only [dataOffset, BitVec.getLsbD_extractLsb', getLsbD_packCtl]
  rw [if_neg (by omega), if_neg (by omega), show 12 + i - 8 - 4 = i by omega]
  simp [hi]

@[simp] theorem reservedBits_packCtl (d r : BitVec 4) (f : Byte) : reservedBits (packCtl d r f) = r := by
  apply BitVec.eq_of_getLsbD_eq
  intro i hi
  simp only [reservedBits, BitVec.getLsbD_extractLsb', getLsbD_packCtl]
  rw [if_neg (by omega), if_pos (by omega), show 8 + i - 8 = i by omega]
  simp [hi]

@[simp] theorem flagBits_packCtl (d r : BitVec 4) (f : Byte) : flagBits (packCtl d r f) = f := by
  apply BitVec.eq_of_getLsbD_eq
  intro i hi
  simp only [flagBits, BitVec.getLsbD_extractLsb', getLsbD_packCtl]
  rw [if_pos (by omega), show 0 + i = i by omega]
  simp [hi]

/-- A word is its three sub-fields (00_scope.md R15). -/
@[simp] theorem packCtl_fields (c : Half) : packCtl (dataOffset c) (reservedBits c) (flagBits c) = c := by
  apply BitVec.eq_of_getLsbD_eq
  intro i hi
  simp only [getLsbD_packCtl, dataOffset, reservedBits, flagBits, BitVec.getLsbD_extractLsb']
  split
  · simp [*]
  · split
    · rw [show 8 + (i - 8) = i by omega]; simp [*]
    · rw [show 12 + (i - 8 - 4) = i by omega]
      have : i - 8 - 4 < 4 := by omega
      simp [this]

/-- A flag of a packed word is its bit of the flags byte. -/
@[simp] theorem flagSet_packCtl (t : TcpFlag) (d r : BitVec 4) (f : Byte) :
    flagSet t (packCtl d r f) = f.getLsbD (flagPos t) := by
  rw [flagSet, getLsbD_packCtl, if_pos (by cases t <;> decide)]

@[simp] theorem length_bytes16 (v : Half) : (bytes16 v).length = 2 := rfl

@[simp] theorem length_bytes32 (v : Word) : (bytes32 v).length = 4 := rfl

/-- The two bytes of a 16-bit value make it up again. -/
theorem bytes16_append (v : Half) : (v.extractLsb' 8 8 ++ v.extractLsb' 0 8 : Half) = v := by
  apply BitVec.eq_of_getLsbD_eq
  intro i hi
  rw [getLsbD_byte_append]
  simp only [BitVec.getLsbD_extractLsb']
  split
  · simp [*]
  · rw [show 8 + (i - 8) = i by omega]
    have : i - 8 < 8 := by omega
    simp [this]

/-- The four bytes of a 32-bit value make it up again. -/
theorem bytes32_append (v : Word) :
    (v.extractLsb' 24 8 ++ v.extractLsb' 16 8 ++ v.extractLsb' 8 8 ++ v.extractLsb' 0 8 : Word) = v := by
  apply BitVec.eq_of_getLsbD_eq
  intro i hi
  rw [show (v.extractLsb' 24 8 ++ v.extractLsb' 16 8 ++ v.extractLsb' 8 8 ++ v.extractLsb' 0 8 : Word).getLsbD i = _ from
    BitVec.getLsbD_append (x := v.extractLsb' 24 8 ++ v.extractLsb' 16 8 ++ v.extractLsb' 8 8) (y := v.extractLsb' 0 8)]
  simp only [BitVec.getLsbD_append, BitVec.getLsbD_extractLsb']
  split
  · simp [*]
  · split
    · rw [show 8 + (i - 8) = i by omega]; simp [*]
    · split
      · rw [show 16 + (i - 8 - 8) = i by omega]; simp [*]
      · rw [show 24 + (i - 8 - 8 - 8) = i by omega]
        have : i - 8 - 8 - 8 < 8 := by omega
        simp [this]

@[simp] theorem be16_bytes16 (v : Half) : be16 (bytes16 v) 0 = v := bytes16_append v

@[simp] theorem be32_bytes32 (v : Word) : be32 (bytes32 v) 0 = v := bytes32_append v

@[simp] theorem length_headerBytes (g : Segment) (dw : BitVec 4) (ck : Half) : (headerBytes g dw ck).length = 20 := by
  simp [headerBytes]

theorem length_segmentBytes (g : Segment) (dw : BitVec 4) (ck : Half) :
    (segmentBytes g dw ck).length = 20 + g.opt.length + (4 * dw.toNat - 20 - g.opt.length) + g.pay.length := by
  simp [segmentBytes, Nat.add_assoc]

/-- With the header length the options need, the segment is 4*dw bytes of header and the payload (42_serialize.md R167). -/
theorem length_segmentBytes_exact {g : Segment} {dw : BitVec 4} (ck : Half) (h : 4 * dw.toNat = hdrActual g) :
    (segmentBytes g dw ck).length = 4 * dw.toNat + g.pay.length := by
  rw [length_segmentBytes]
  unfold hdrActual pad4 at h
  omega

theorem length_serializedBytes_exact {g : Segment} {dw : BitVec 4} (h : 4 * dw.toNat = hdrActual g) :
    (serializedBytes g dw).length = 4 * dw.toNat + g.pay.length := length_segmentBytes_exact _ h

/-- The fixed-up offset is the header length the options need, in words (42_serialize.md R173). -/
theorem four_fixupOffset (g : Segment) : 4 * fixupOffset g = hdrActual g := by
  unfold fixupOffset hdrActual pad4
  omega

/-- The fixed-up offset fits the 4-bit field (42_serialize.md R173). -/
theorem fixupOffset_bounds {g : Segment} (h : g.opt.length ≤ Config.optMax) : 5 ≤ fixupOffset g ∧ fixupOffset g ≤ 15 := by
  unfold fixupOffset hdrActual pad4
  simp only [Config.optMax] at h
  omega

theorem toNat_fixupOffset {g : Segment} (h : g.opt.length ≤ Config.optMax) :
    (BitVec.ofNat 4 (fixupOffset g)).toNat = fixupOffset g := by
  have := fixupOffset_bounds h
  rw [BitVec.toNat_ofNat]
  omega

/-- The bounds of the parameters (00_scope.md R8). -/
theorem bufCap_bounds : 60 ≤ Config.bufCap ∧ Config.bufCap ≤ 65535 := by
  have := Config.bufCapAboveMin.isLt
  unfold Config.bufCap
  omega

theorem payloadMax_bound : Config.payloadMax ≤ 65475 := by
  have := Config.payloadMaxChoice.isLt
  unfold Config.payloadMax
  omega

theorem numUnits_pos : 0 < Config.numUnits := by
  unfold Config.numUnits
  omega

end Sys2Proof.Machine
end

