-- ==== Sys2Proof/Laws/Serialize.lean ====
section
/-! SUPPORT. What emit does to each field of the unit, and the checksum's independence of the bytes at offsets 16 and 17. -/

namespace Sys2Proof.Machine

variable (g : Segment) (dw : BitVec 4) (u : CodecUnit)

@[simp] theorem emit_seg : (emit g dw u).seg = u.seg := by
  simp only [emit, setRes0]
@[simp] theorem emit_inp : (emit g dw u).inp = u.inp := by
  simp only [emit, setRes0]
@[simp] theorem emit_bufLen : (emit g dw u).bufLen = u.bufLen := by
  simp only [emit, setRes0]
@[simp] theorem emit_code : (emit g dw u).code = u.code := by
  simp only [emit, setRes0]
@[simp] theorem emit_errSeen : (emit g dw u).errSeen = u.errSeen := by
  simp only [emit, setRes0]
@[simp] theorem emit_res1 : (emit g dw u).res1 = u.res1 := by
  simp only [emit, setRes0]
@[simp] theorem emit_res2 : (emit g dw u).res2 = u.res2 := by
  simp only [emit, setRes0]

@[simp] theorem emit_buf : (emit g dw u).buf = u.buf.writeBytes 0 (serializedBytes g dw) := by
  simp only [emit, setRes0]

@[simp] theorem emit_res0 : (emit g dw u).res0 = some (BitVec.ofNat 32 (4 * dw.toNat + g.pay.length)) := by
  simp only [emit, setRes0]

/-- The 20 header bytes, one by one (30_encoding.md R100). -/
theorem headerBytes_eq (ck : Half) : headerBytes g dw ck =
    [g.srcPort.extractLsb' 8 8, g.srcPort.extractLsb' 0 8, g.dstPort.extractLsb' 8 8, g.dstPort.extractLsb' 0 8,
     g.seq.extractLsb' 24 8, g.seq.extractLsb' 16 8, g.seq.extractLsb' 8 8, g.seq.extractLsb' 0 8,
     g.ack.extractLsb' 24 8, g.ack.extractLsb' 16 8, g.ack.extractLsb' 8 8, g.ack.extractLsb' 0 8,
     (packCtl dw (reservedBits g.ctl) (flagBits g.ctl)).extractLsb' 8 8,
     (packCtl dw (reservedBits g.ctl) (flagBits g.ctl)).extractLsb' 0 8,
     g.window.extractLsb' 8 8, g.window.extractLsb' 0 8, ck.extractLsb' 8 8, ck.extractLsb' 0 8,
     g.urgent.extractLsb' 8 8, g.urgent.extractLsb' 0 8] := rfl

/-- The checksum of a segment's bytes does not depend on what stands at offsets 16 and 17 (42_serialize.md R162). -/
theorem tcpChecksum_segmentBytes (sa da : Word) (ck ck' : Half) :
    tcpChecksum sa da (segmentBytes g dw ck) = tcpChecksum sa da (segmentBytes g dw ck') := by
  have : zeroChecksum (segmentBytes g dw ck) = zeroChecksum (segmentBytes g dw ck') := by
    simp [zeroChecksum, segmentBytes, headerBytes_eq]
  simp only [tcpChecksum, this, length_segmentBytes]

end Sys2Proof.Machine
end

