-- ==== Sys2Proof/Laws/Commands.lean ====
section
/-! SUPPORT. The pseudocode of every command as one function, and what each command's success does to the segment and to the invariant
of the unit. -/

namespace Sys2Proof.Machine

/-- The pseudocode of a command. -/
def commandOf : Instr → Command
  | .newAck => newControl (flagsOf [.ack])
  | .newAckSyn => newControl (flagsOf [.ack, .syn])
  | .newRst => newControl (flagsOf [.rst])
  | .fromHeader => fromHeaderCommand
  | .setField f => setFieldCommand f
  | .parse => parseCommand
  | .serialize => serializeCommand
  | .serializeFixup => serializeFixupCommand
  | .getSize => query fun g => BitVec.ofNat 32 (wireSize g)
  | .tag => query fun _ => Config.tcpLayerTag
  | .getSrcPort => query fun g => g.srcPort.setWidth 32
  | .getDstPort => query fun g => g.dstPort.setWidth 32
  | .getSeq => query fun g => g.seq
  | .getAck => query fun g => g.ack
  | .getSrcAddr => query fun g => g.srcAddr
  | .getDstAddr => query fun g => g.dstAddr
  | .getField f => getFieldCommand f
  | .isAck => query fun g => boolWord (flagSet .ack g.ctl)
  | .isRst => query fun g => boolWord (flagSet .rst g.ctl)
  | .isSyn => query fun g => boolWord (flagSet .syn g.ctl)
  | .isFin => query fun g => boolWord (flagSet .fin g.ctl)
  | .isRstOrFin => query fun g => boolWord (flagSet .rst g.ctl || flagSet .fin g.ctl)
  | .format => formatCommand

/-- Every command runs its pseudocode to completion. -/
theorem exec_eq_complete (i : Instr) (s : State) : exec i s = complete (commandOf i) s := by cases i <;> rfl

variable {u v : CodecUnit} {g h : Segment}

/-- A control constructor succeeds only with its six operands, and then loads its segment. -/
theorem newControl_ok {flags : Byte} (hv : newControl flags u = .ok v) :
    ∃ o, controlOperands u.inp = some o ∧ v = loadSegment (controlSegment flags o) u := by
  simp only [newControl] at hv
  split at hv
  · cases hv
  · next o ho => cases hv; exact ⟨o, ho, rfl⟩

/-- FROM_HEADER succeeds only with its operands defined and in range, and then loads them. -/
theorem fromHeaderCommand_ok (hv : fromHeaderCommand u = .ok v) :
    ∃ o opt pay, headerOperands u.inp = some o ∧ o.optLen.toNat ≤ Config.optMax ∧ o.payLen.toNat ≤ Config.payloadMax ∧
      u.inp.opt.readBytes 0 o.optLen.toNat = some opt ∧ u.inp.pay.readBytes 0 o.payLen.toNat = some pay ∧
      v = loadSegment (headerSegment o opt pay) u := by
  simp only [fromHeaderCommand] at hv
  split at hv
  · cases hv
  · next o ho =>
    split at hv
    · cases hv
    · next hr =>
      split at hv
      · next opt pay h1 h2 => cases hv; exact ⟨o, opt, pay, ho, by omega, by omega, h1, h2, rfl⟩
      · cases hv

/-- The options operand is at most OPT_MAX bytes of IN_OPT. -/
theorem optionsOperand_ok {b : OperandBank} {bs : List Byte} (hb : optionsOperand b = .ok bs) :
    ∃ n, b.optLen = some n ∧ n.toNat ≤ Config.optMax ∧ b.opt.readBytes 0 n.toNat = some bs := by
  simp only [optionsOperand] at hb
  split at hb
  · cases hb
  · next n hn =>
    split at hb
    · cases hb
    · next hr =>
      simp only [scalarOperand] at hb
      split at hb
      · cases hb
      · next bs' hbs => cases hb; exact ⟨n, hn, by omega, hbs⟩

/-- The payload operand is at most PAYLOAD_MAX bytes of IN_PAY. -/
theorem payloadOperand_ok {b : OperandBank} {bs : List Byte} (hb : payloadOperand b = .ok bs) :
    ∃ n, b.payLen = some n ∧ n.toNat ≤ Config.payloadMax ∧ b.pay.readBytes 0 n.toNat = some bs := by
  simp only [payloadOperand] at hb
  split at hb
  · cases hb
  · next n hn =>
    split at hb
    · cases hb
    · next hr =>
      simp only [scalarOperand] at hb
      split at hb
      · cases hb
      · next bs' hbs => cases hb; exact ⟨n, hn, by omega, hbs⟩

/-- A capacity is at most BUF_CAP. -/
theorem capacityOperand_ok {cap : Nat} (hc : capacityOperand u = .ok cap) :
    ∃ n, u.bufLen = some n ∧ cap = n.toNat ∧ cap ≤ Config.bufCap := by
  simp only [capacityOperand] at hc
  split at hc
  · cases hc
  · next n hn =>
    split at hc
    · cases hc
    · cases hc; exact ⟨n, hn, rfl, by omega⟩

/-- SET_FIELD succeeds only with a legal selector and a segment, and then replaces the one field. -/
theorem setFieldCommand_ok {f : Fid} (hv : setFieldCommand f u = .ok v) :
    ∃ g h, u.seg = some g ∧ replaceField f u.inp g = .ok h ∧ v = loadSegment h u := by
  simp only [setFieldCommand] at hv
  split at hv
  · simp only [needSegment] at hv
    split at hv
    · cases hv
    · next g hg =>
      cases hr : replaceField f u.inp g with
      | error e => rw [hr] at hv; cases hv
      | ok h => rw [hr] at hv; cases hv; exact ⟨g, h, hg, hr, rfl⟩
  · cases hv

/-- What PARSE read when it succeeds: the header and option bytes, within BUF_LEN, within BUF_CAP. -/
theorem parseCommand_ok (hv : parseCommand u = .ok v) :
    ∃ len sa da hdr opt, u.bufLen = some len ∧ u.inp.srcAddr = some sa ∧ u.inp.dstAddr = some da ∧ len.toNat ≤ Config.bufCap ∧
      20 ≤ len.toNat ∧ declaredHeader hdr ≤ len.toNat ∧ u.buf.readBytes 0 20 = some hdr ∧
      u.buf.readBytes 20 (optionsBytes (declaredHeader hdr)) = some opt ∧
      v = setRes0 (BitVec.ofNat 32 (max 20 (declaredHeader hdr))) (loadSegment (parsedSegment sa da hdr opt) u) := by
  simp only [parseCommand] at hv
  split at hv
  · next len sa da h1 h2 h3 =>
    split at hv
    · cases hv
    · split at hv
      · cases hv
      · split at hv
        · cases hv
        · next hdr hh =>
          split at hv
          · cases hv
          · split at hv
            · cases hv
            · next opt ho => cases hv; exact ⟨len, sa, da, hdr, opt, h1, h2, h3, by omega, by omega, by omega, hh, ho, rfl⟩
  · cases hv

/-- SERIALIZE succeeds only with a consistent layout and room for the segment, and then emits it. -/
theorem serializeCommand_ok (hv : serializeCommand u = .ok v) :
    ∃ g cap, u.seg = some g ∧ capacityOperand u = .ok cap ∧ wireSize g ≤ cap ∧ ConsistentLayout g ∧
      v = emit g (dataOffset g.ctl) u := by
  simp only [serializeCommand, needSegment] at hv
  split at hv
  · cases hv
  · next g hg =>
    split at hv
    · cases hv
    · next cap hc =>
      split at hv
      · cases hv
      · split at hv
        · cases hv
        · next hl => cases hv; exact ⟨g, cap, hg, hc, by omega, by simpa using hl, rfl⟩

/-- SERIALIZE_FIXUP succeeds only with room for the fixed-up segment, and then emits it. -/
theorem serializeFixupCommand_ok (hv : serializeFixupCommand u = .ok v) :
    ∃ g cap, u.seg = some g ∧ capacityOperand u = .ok cap ∧ fixupSize g ≤ cap ∧
      v = emit g (BitVec.ofNat 4 (fixupOffset g)) u := by
  simp only [serializeFixupCommand, needSegment] at hv
  split at hv
  · cases hv
  · next g hg =>
    split at hv
    · cases hv
    · next cap hc =>
      split at hv
      · cases hv
      · cases hv; exact ⟨g, cap, hg, hc, by omega, rfl⟩

/-- GET_FIELD succeeds only with a segment; it writes the field to RES0 and the copy to the operand bank. -/
theorem getFieldCommand_ok {f : Fid} (hv : getFieldCommand f u = .ok v) :
    ∃ g w, u.seg = some g ∧ fieldWord f g = some w ∧ v = setRes0 w { u with inp := copyOut f g u.inp } := by
  simp only [getFieldCommand] at hv
  split at hv
  · simp only [needSegment] at hv
    split at hv
    · cases hv
    · next g hg =>
      split at hv
      · cases hv
      · next w hw => cases hv; exact ⟨g, w, hg, hw, rfl⟩
  · cases hv

/-- A query succeeds only with a segment and then writes RES0. -/
theorem query_ok {f : Segment → Word} (hv : query f u = .ok v) : ∃ g, u.seg = some g ∧ v = setRes0 (f g) u := by
  simp only [query_eq] at hv
  split at hv
  · cases hv
  · next g hg => cases hv; exact ⟨g, hg, rfl⟩

/-- FORMAT succeeds only with a segment and then writes the three results. -/
theorem formatCommand_ok (hv : formatCommand u = .ok v) :
    ∃ g, u.seg = some g ∧
      v = { u with res0 := some (flagSummary g.ctl), res1 := some (g.srcPort ++ g.dstPort), res2 := some Config.tcpLayerTag } := by
  simp only [formatCommand, needSegment] at hv
  split at hv
  · cases hv
  · next g hg => cases hv; exact ⟨g, hg, rfl⟩

/-- A replaced field keeps the segment inside its storage. -/
theorem replaceField_good {f : Fid} {b : OperandBank} (hg : SegmentGood g) (hr : replaceField f b g = .ok h) : SegmentGood h := by
  have key : ∀ {α : Type} (x : Except Cause α) (k : α → Segment), x.map k = .ok h → ∃ a, x = .ok a ∧ k a = h := by
    intro α x k hk
    cases x with
    | error e => cases hk
    | ok a => exact ⟨a, rfl, Except.ok.inj hk⟩
  cases f
  case options =>
    obtain ⟨bs, hb, rfl⟩ := key _ _ hr
    obtain ⟨n, -, hn, hbs⟩ := optionsOperand_ok hb
    exact ⟨by have := readBytes_length hbs; show bs.length ≤ _; omega, hg.payFits⟩
  case payload =>
    obtain ⟨bs, hb, rfl⟩ := key _ _ hr
    obtain ⟨n, -, hn, hbs⟩ := payloadOperand_ok hb
    exact ⟨hg.optFits, by have := readBytes_length hbs; show bs.length ≤ _; omega⟩
  case illegal14 => cases hr
  case illegal15 => cases hr
  all_goals
    obtain ⟨a, -, rfl⟩ := key _ _ hr
    exact ⟨hg.optFits, hg.payFits⟩

end Sys2Proof.Machine
end

