-- ==== Sys2Proof/Laws/Encoding.lean ====
section
/-! SUPPORT. The laws of the decoder and the encoder: the three fields of an encoded word, and what an accepted word is. -/

namespace Sys2Proof

@[simp] theorem fidOfBits_fidBits (f : Fid) : fidOfBits (fidBits f) = f := by cases f <;> rfl

@[simp] theorem fidBits_fidOfBits : ∀ b : BitVec 4, fidBits (fidOfBits b) = b := by decide

@[simp] theorem wordOpc_encode (i : Instr) : wordOpc (encode i) = instrOpc i := by
  cases i with
  | setField f => cases f <;> rfl
  | getField f => cases f <;> rfl
  | _ => rfl

@[simp] theorem wordFid_encode (i : Instr) : wordFid (encode i) = instrFid i := by
  cases i with
  | setField f => cases f <;> rfl
  | getField f => cases f <;> rfl
  | _ => rfl

@[simp] theorem wordMbz_encode (i : Instr) : wordMbz (encode i) = 0 := by
  cases i with
  | setField f => cases f <;> rfl
  | getField f => cases f <;> rfl
  | _ => rfl

/-- A word is its three fields. -/
theorem word_eq_fields (w : Word) : w = wordMbz w ++ wordFid w ++ wordOpc w := by
  apply BitVec.eq_of_getLsbD_eq
  intro k hk
  simp only [wordMbz, wordFid, wordOpc, BitVec.getLsbD_append, BitVec.getLsbD_extractLsb']
  split
  · simp [*]
  · split
    · have : 8 + (k - 8) = k := by omega
      simp [*]
    · have h1 : 12 + (k - 8 - 4) = k := by omega
      have h2 : k - 8 - 4 < 20 := by omega
      simp [h1, h2]

end Sys2Proof
end

