-- ==== Sys2Proof/Laws/HostBus.lean ====
section
/-! SUPPORT. What the host interface and the events do: where an access goes, and everything one event does to the system. -/

namespace Sys2Proof.Machine

variable {s t : State} {u : CodecUnit}

/-- An aligned 32-bit access at a register's offset reaches the register. -/
theorem resolve_reg (r : HostReg) : resolve .w32 (BitVec.ofNat 18 (hostRegOffset r)) = .ok (.reg r) := by
  cases r <;> rfl

/-- Only a 32-bit access reaches a register, and only at the register's offset. -/
theorem resolve_eq_reg {w : Width} {off : Offset} {r : HostReg} (h : resolve w off = .ok (.reg r)) :
    w = .w32 ∧ off.toNat = hostRegOffset r := by
  unfold resolve at h
  split at h
  · next hlt =>
    split at h
    · cases h
    · next r' hr =>
      split at h
      · next hw =>
        obtain rfl : r' = r := by simpa using h
        refine ⟨hw.1, ?_⟩
        have hdiv : off.toNat = 4 * (off.toNat / 4) := by omega
        rw [hdiv]
        generalize off.toNat / 4 = k at hr
        unfold hostRegAt at hr
        split at hr <;> first | (cases hr; rfl) | cases hr
      · cases h
  · split at h
    · cases h
    · repeat' split at h
      all_goals cases h

/-- An access that reaches array bytes lies inside the array, aligned to its width. -/
theorem resolve_eq_bytes {w : Width} {off : Offset} {a : HostArray} {i : Nat} (h : resolve w off = .ok (.bytes a i)) :
    off.toNat = arrayBase a + i ∧ i + widthBytes w ≤ arraySize a ∧ off.toNat % widthBytes w = 0 := by
  unfold resolve at h
  split at h
  · split at h
    · cases h
    · split at h <;> cases h
  · split at h
    · cases h
    · next a' ha =>
      split at h
      · cases h
      · next hal =>
        split at h
        · next hin =>
          simp only [Except.ok.injEq, Target.bytes.injEq] at h
          obtain ⟨rfl, rfl⟩ := h
          have hb : arrayBase a' ≤ off.toNat := by
            unfold arrayAt at ha
            split at ha
            · cases ha; omega
            · split at ha
              · cases ha; omega
              · split at ha
                · cases ha; omega
                · cases ha
          exact ⟨by omega, hin, by omega⟩
        · cases h

/-- A pending event is what the next step does. -/
theorem step_cons {e : Event} {rest : List Event} (h : s.pending = e :: rest) :
    step s = runEvent e { s with pending := rest } := by
  simp only [step, runPending, h]

/-- With nothing pending the block is idle (70_reset_and_hazards.md R272). -/
theorem step_idle (h : s.pending = []) : step s = .next s := by
  simp only [step, runPending, h]

/-- A command word that is a command runs it; any other raises ILLEGAL_COMMAND. -/
theorem runCommandWord_ok {w : Word} {i : Instr} (h : decode w = .ok i) : runCommandWord w s = exec i s := by
  simp only [runCommandWord, h]

theorem runCommandWord_error {w : Word} {d : DecodeError} (h : decode w = .error d) :
    runCommandWord w s = .next (s.setUnit (raise .illegalCommand s.unit)) := by
  simp only [runCommandWord, h]
  exact complete_error rfl

/-- Turning to the unit already accessed changes nothing. -/
@[simp] theorem selectUnit_self : selectUnit s.sel s = some s := by simp [selectUnit]

/-- Everything a host access can do, if it has a step: a read, a command, or a stored write. -/
theorem runAccess_cases {a : Access} (h : runAccess a s = .next t) :
    (∃ w off g, a = .read w off ∧ resolve w off = .ok g ∧ t = { s with lastRead := some (hostRead w g s.unit) }) ∨
      (∃ w off v, a = .write w off v ∧ resolve w off = .ok (.reg .cmd) ∧ runCommandWord v s = .next t) ∨
      (∃ w off v g, a = .write w off v ∧ resolve w off = .ok g ∧ g ≠ .reg .cmd ∧ t = s.setUnit (hostWrite w g v s.unit)) := by
  cases a with
  | read w off =>
    simp only [runAccess] at h
    split at h
    · cases h
    · next g hg => cases h; exact .inl ⟨w, off, g, rfl, hg, rfl⟩
  | write w off v =>
    simp only [runAccess] at h
    split at h
    · cases h
    · next hg => exact .inr (.inl ⟨w, off, v, rfl, hg, h⟩)
    · next g hne hg => cases h; exact .inr (.inr ⟨w, off, v, g, rfl, hg, hne, rfl⟩)

/-- An aligned access inside an array reaches its bytes. -/
theorem resolve_bytes {a : HostArray} {k : Nat} {w : Width} (hk : k % widthBytes w = 0) (hin : k + widthBytes w ≤ arraySize a) :
    resolve w (BitVec.ofNat 18 (arrayBase a + k)) = .ok (.bytes a k) := by
  have h1 := bufCap_bounds
  have h2 := payloadMax_bound
  have hw : widthBytes w = 1 ∨ widthBytes w = 2 ∨ widthBytes w = 4 := by cases w <;> simp [widthBytes]
  have s1 : arraySize .inOpt = 40 := rfl
  have s2 : arraySize .inPay = Config.payloadMax := rfl
  have s3 : arraySize .buf = Config.bufCap := rfl
  have b1 : arrayBase .inOpt = 0x100 := rfl
  have b2 : arrayBase .inPay = 0x10000 := rfl
  have b3 : arrayBase .buf = 0x20000 := rfl
  have ht : (BitVec.ofNat 18 (arrayBase a + k)).toNat = arrayBase a + k := by
    rw [BitVec.toNat_ofNat]; cases a <;> omega
  have hat : arrayAt (arrayBase a + k) = some a := by
    unfold arrayAt
    cases a
    · rw [if_pos (by omega)]
    · rw [if_neg (by omega), if_pos (by omega)]
    · rw [if_neg (by omega), if_neg (by omega), if_pos (by omega)]
  unfold resolve
  rw [ht, if_neg (by cases a <;> omega)]
  simp only [hat]
  rw [if_neg, if_pos (by omega), Nat.add_sub_cancel_left]
  cases a <;> rcases hw with e | e | e <;> rw [e] at hk ⊢ <;> omega

@[simp] theorem arrayMemory_setArrayMemory (a : HostArray) (m : Memory) (u : CodecUnit) :
    arrayMemory a (setArrayMemory a m u) = m := by cases a <;> rfl

/-- A register write leaves what every other register reads as. -/
theorem readReg_writeReg_other {r r' : HostReg} (h : r' ≠ r) (v : Word) (u : CodecUnit) :
    readReg r' (writeReg r v u) = readReg r' u := by
  cases r <;> cases r' <;> first | rfl | exact absurd rfl h

/-- An access to the unit being accessed is the next step. -/
theorem step_access {a : Access} {rest : List Event} (h : s.pending = .access s.sel a :: rest) :
    step s = runAccess a { s with pending := rest } := by
  have hsel : selectUnit s.sel { s with pending := rest } = some { s with pending := rest } :=
    selectUnit_self (s := { s with pending := rest })
  rw [step_cons h]
  simp only [runEvent, hsel]

end Sys2Proof.Machine
end

