-- ==== Sys2Proof/Laws/PerInstr.lean ====
section
/-! SUPPORT. The statement made per command: its word has its opcode and selector in their places and zero in MBZ, so it is at most
0xFFF, and the selector is zero unless the command takes one (30_encoding.md R80). -/

namespace Sys2Proof.Laws.WordFormat

/-- The command word's three fields (30_encoding.md R80), and the opcode map's entry for its opcode (R82). -/
def Statement (i : Instr) : Prop :=
  (encode i).toNat < 0x1000 ∧ (encode i).toNat % 0x100 = (instrOpc i).toNat ∧
    (encode i).toNat / 0x100 = (instrFid i).toNat ∧
    opcodeMap (instrOpc i) = some
      (match i with
       | .setField _ => .setField
       | .getField _ => .getField
       | j => .plain j)

theorem newAck : Statement .newAck := ⟨by decide, by decide, by decide, rfl⟩

theorem newAckSyn : Statement .newAckSyn := ⟨by decide, by decide, by decide, rfl⟩

theorem newRst : Statement .newRst := ⟨by decide, by decide, by decide, rfl⟩

theorem fromHeader : Statement .fromHeader := ⟨by decide, by decide, by decide, rfl⟩

theorem setField (f : Fid) : Statement (.setField f) := by cases f <;> exact ⟨by decide, by decide, by decide, rfl⟩

theorem parse : Statement .parse := ⟨by decide, by decide, by decide, rfl⟩

theorem serialize : Statement .serialize := ⟨by decide, by decide, by decide, rfl⟩

theorem serializeFixup : Statement .serializeFixup := ⟨by decide, by decide, by decide, rfl⟩

theorem getSize : Statement .getSize := ⟨by decide, by decide, by decide, rfl⟩

theorem tag : Statement .tag := ⟨by decide, by decide, by decide, rfl⟩

theorem getSrcPort : Statement .getSrcPort := ⟨by decide, by decide, by decide, rfl⟩

theorem getDstPort : Statement .getDstPort := ⟨by decide, by decide, by decide, rfl⟩

theorem getSeq : Statement .getSeq := ⟨by decide, by decide, by decide, rfl⟩

theorem getAck : Statement .getAck := ⟨by decide, by decide, by decide, rfl⟩

theorem getSrcAddr : Statement .getSrcAddr := ⟨by decide, by decide, by decide, rfl⟩

theorem getDstAddr : Statement .getDstAddr := ⟨by decide, by decide, by decide, rfl⟩

theorem getField (f : Fid) : Statement (.getField f) := by cases f <;> exact ⟨by decide, by decide, by decide, rfl⟩

theorem isAck : Statement .isAck := ⟨by decide, by decide, by decide, rfl⟩

theorem isRst : Statement .isRst := ⟨by decide, by decide, by decide, rfl⟩

theorem isSyn : Statement .isSyn := ⟨by decide, by decide, by decide, rfl⟩

theorem isFin : Statement .isFin := ⟨by decide, by decide, by decide, rfl⟩

theorem isRstOrFin : Statement .isRstOrFin := ⟨by decide, by decide, by decide, rfl⟩

theorem format : Statement .format := ⟨by decide, by decide, by decide, rfl⟩

end Sys2Proof.Laws.WordFormat
end

