-- ==== Sys2Proof/Tests/Slice0.lean ====
section
/-! SUPPORT. Tests with expected results from 95_test_vectors.md or by hand from the rules, and a witness for the hypotheses of every
obligation that has some. Every test is one step on a small state. -/

namespace Sys2Proof.Tests

open Sys2Proof.Machine

/-! Small states -/

/-- The operands of the ACK scenario (95_test_vectors.md, Conventions). -/
def ackBank : OperandBank :=
  { OperandBank.reset with srcAddr := some 0x0A000001, dstAddr := some 0x0A000002, srcPort := some 1234, dstPort := some 80,
                           seq := some 1000, ack := some 2000 }

/-- The segment V1 gives for NEW_ACK, with another control word, urgent pointer, options and payload where asked. -/
def segmentOf (ctl : Half) (urgent : Half) (opt pay : List Byte) : Segment :=
  { srcPort := 1234, dstPort := 80, seq := 1000, ack := 2000, ctl := ctl, window := 0xFFFF, checksum := 0x0000, urgent := urgent,
    opt := opt, pay := pay, srcAddr := 0x0A000001, dstAddr := 0x0A000002 }

def ackSegment : Segment := segmentOf 0x5010 0 [] []

/-- The segment of V14 and V30. -/
def shortSegment : Segment :=
  { srcPort := 53, dstPort := 49152, seq := 1, ack := 2, ctl := 0x3002, window := 0x1000, checksum := 0xDEAD, urgent := 0,
    opt := [], pay := [], srcAddr := 0x08080808, dstAddr := 0x0A010101 }

/-- A system in its reset state but for the unit being accessed. -/
def stateOf (u : CodecUnit) : State := { State.reset with unit := u }

def withBank (b : OperandBank) : State := stateOf { CodecUnit.reset with inp := b }

def holding (g : Segment) : State := stateOf { CodecUnit.reset with seg := some g }

/-- A segment held and CSR.BUF_LEN set. -/
def toSerialize (g : Segment) (cap : Half) : State := stateOf { CodecUnit.reset with seg := some g, bufLen := some cap }

/-- Bytes in BUF from index 0, CSR.BUF_LEN and the two addresses set. -/
def toParse (bs : List Byte) (len : Half) (sa da : Word) : State :=
  stateOf { CodecUnit.reset with
    buf := Memory.writeBytes [] 0 bs, bufLen := some len,
    inp := { OperandBank.reset with srcAddr := some sa, dstAddr := some da } }

def resultUnit : Result → Option CodecUnit
  | .next s => some s.unit
  | .fault _ => none
  | .refused _ => none

def resultState : Result → Option State
  | .next s => some s
  | .fault _ => none
  | .refused _ => none

def segOf (r : Result) : Option Segment := (resultUnit r).bind (·.seg)
def res0Of (r : Result) : Option Word := (resultUnit r).bind (·.res0)
def statusOf (r : Result) : Option Word := (resultUnit r).map statusWord
def bufOf (n : Nat) (r : Result) : Option (List Byte) := (resultUnit r).bind fun u => u.buf.readBytes 0 n
def replyOf (r : Result) : Option ReadReply := (resultState r).bind (·.lastRead)

/-- The bytes of W6. -/
def w6 : List Byte :=
  [0x04, 0xD2, 0x00, 0x50, 0x00, 0x00, 0x03, 0xE8, 0x00, 0x00, 0x07, 0xD0, 0x50, 0x10, 0xFF, 0xFF, 0x8A, 0xF8, 0x00, 0x00]

/-- The bytes of V12. -/
def v12 : List Byte :=
  [0x04, 0xD2, 0x00, 0x50, 0x00, 0x00, 0x03, 0xE8, 0x00, 0x00, 0x07, 0xD0, 0x60, 0x02, 0xFF, 0xFF, 0x8A, 0xF8, 0x00, 0x00,
   0x02, 0x04, 0x05, 0xB4]

/-- The bytes of V14. -/
def v14 : List Byte :=
  [0x00, 0x35, 0xC0, 0x00, 0x00, 0x00, 0x00, 0x01, 0x00, 0x00, 0x00, 0x02, 0x30, 0x02, 0x10, 0x00, 0xDE, 0xAD, 0x00, 0x00]

/-- The operands of V6, with chosen control word and options length, nothing in the arrays. -/
def onesBank (ctl : Half) (optLen : Byte) (payLen : Half) : OperandBank :=
  { OperandBank.reset with
    srcAddr := some 0xFFFFFFFF, dstAddr := some 0xFFFFFFFF, srcPort := some 0xFFFF, dstPort := some 0xFFFF,
    seq := some 0xFFFFFFFF, ack := some 0xFFFFFFFF, ctl := some ctl, window := some 0xFFFF, checksum := some 0x1234,
    urgent := some 0xFFFF, optLen := some optLen, payLen := some payLen }

/-! Well-formedness: each check refuses an ill-formed term (30_encoding.md R83, R84) -/

theorem test_wellFormed_refuses_setField_14 : (Instr.setField .illegal14).wellFormed = false := by decide
theorem test_wellFormed_refuses_setField_15 : (Instr.setField .illegal15).wellFormed = false := by decide
theorem test_wellFormed_refuses_getField_14 : (Instr.getField .illegal14).wellFormed = false := by decide
theorem test_wellFormed_refuses_getField_15 : (Instr.getField .illegal15).wellFormed = false := by decide
theorem test_wellFormed_accepts_getField_dstAddr : (Instr.getField .dstAddr).wellFormed = true := by decide

/-! Decoding: words written out as MBZ 31:12, FID 11:8, OPC 7:0 from 30_encoding.md R80, R82, R83 -/

theorem test_decode_newAck : decode 0b00000000000000000000_0000_00000001 = .ok .newAck := by decide
theorem test_decode_newAckSyn : decode 0b00000000000000000000_0000_00000010 = .ok .newAckSyn := by decide
theorem test_decode_newRst : decode 0b00000000000000000000_0000_00000011 = .ok .newRst := by decide
theorem test_decode_fromHeader : decode 0b00000000000000000000_0000_00000100 = .ok .fromHeader := by decide
theorem test_decode_setField_flags : decode 0b00000000000000000000_0110_00000101 = .ok (.setField .flags) := by decide
theorem test_decode_setField_dstAddr : decode 0b00000000000000000000_1101_00000101 = .ok (.setField .dstAddr) := by decide
theorem test_decode_parse : decode 0b00000000000000000000_0000_00010000 = .ok .parse := by decide
theorem test_decode_serialize : decode 0b00000000000000000000_0000_00100000 = .ok .serialize := by decide
theorem test_decode_serializeFixup : decode 0b00000000000000000000_0000_00100001 = .ok .serializeFixup := by decide
theorem test_decode_getSize : decode 0b00000000000000000000_0000_00100010 = .ok .getSize := by decide
theorem test_decode_tag : decode 0b00000000000000000000_0000_00100011 = .ok .tag := by decide
theorem test_decode_getSrcPort : decode 0b00000000000000000000_0000_00110000 = .ok .getSrcPort := by decide
theorem test_decode_getDstPort : decode 0b00000000000000000000_0000_00110001 = .ok .getDstPort := by decide
theorem test_decode_getSeq : decode 0b00000000000000000000_0000_00110010 = .ok .getSeq := by decide
theorem test_decode_getAck : decode 0b00000000000000000000_0000_00110011 = .ok .getAck := by decide
theorem test_decode_getSrcAddr : decode 0b00000000000000000000_0000_00110100 = .ok .getSrcAddr := by decide
theorem test_decode_getDstAddr : decode 0b00000000000000000000_0000_00110101 = .ok .getDstAddr := by decide
theorem test_decode_getField_options : decode 0b00000000000000000000_1010_00110110 = .ok (.getField .options) := by decide
theorem test_decode_isAck : decode 0b00000000000000000000_0000_01000000 = .ok .isAck := by decide
theorem test_decode_isRst : decode 0b00000000000000000000_0000_01000001 = .ok .isRst := by decide
theorem test_decode_isSyn : decode 0b00000000000000000000_0000_01000010 = .ok .isSyn := by decide
theorem test_decode_isFin : decode 0b00000000000000000000_0000_01000011 = .ok .isFin := by decide
theorem test_decode_isRstOrFin : decode 0b00000000000000000000_0000_01000100 = .ok .isRstOrFin := by decide
theorem test_decode_format : decode 0b00000000000000000000_0000_01010000 = .ok .format := by decide

/-- The fourteen selector words of V40, V8, V24 and V9, and their encodings. -/
theorem test_decode_selectors :
    (decode 0x00000036 = .ok (.getField .srcPort) ∧ decode 0x00000136 = .ok (.getField .dstPort) ∧
      decode 0x00000236 = .ok (.getField .seq) ∧ decode 0x00000336 = .ok (.getField .ack) ∧
      decode 0x00000436 = .ok (.getField .dataOffset) ∧ decode 0x00000536 = .ok (.getField .reserved) ∧
      decode 0x00000636 = .ok (.getField .flags) ∧ decode 0x00000736 = .ok (.getField .window)) ∧
    (decode 0x00000836 = .ok (.getField .checksum) ∧ decode 0x00000936 = .ok (.getField .urgent) ∧
      decode 0x00000A05 = .ok (.setField .options) ∧ decode 0x00000B05 = .ok (.setField .payload) ∧
      decode 0x00000C36 = .ok (.getField .srcAddr) ∧ decode 0x00000D36 = .ok (.getField .dstAddr)) := by decide

theorem test_encode_selectors : encode (.setField .urgent) = 0x00000905 ∧ encode (.getField .checksum) = 0x00000836 ∧
    encode .serializeFixup = 0x00000021 := by decide

/-- The illegal words of V9. -/
theorem test_decode_illegal : decode 0x00000E05 = .error .fidReserved ∧ decode 0x00000F36 = .error .fidReserved ∧
    decode 0x00000000 = .error .unknownOpcode ∧ decode 0x00000101 = .error .fidNotZero ∧
    decode 0x00001001 = .error .mbzNotZero ∧ decode 0x000000FF = .error .unknownOpcode := by decide

theorem test_decodeTableWord : decodeTableWord 32 0x00000605 = some (.setField .flags) ∧ decodeTableWord 32 0x00001001 = none := by
  decide

/-! Construction and field edits -/

/-- V1. -/
theorem test_newAck : segOf (exec .newAck (withBank ackBank)) = some ackSegment ∧
    statusOf (exec .newAck (withBank ackBank)) = some 0x00000100 := by decide

/-- V5: IN.ack never written. -/
theorem test_newAck_unset : resultUnit (exec .newAck (withBank { ackBank with ack := none })) =
    some { CodecUnit.reset with inp := { ackBank with ack := none }, code := .raised .operandUnset, errSeen := true } := by decide

/-- V2. -/
theorem test_newAckSyn : segOf (exec .newAckSyn (withBank ackBank)) = some (segmentOf 0x5012 0 [] []) := by decide

/-- V3. -/
theorem test_newRst : segOf (exec .newRst (withBank ackBank)) = some (segmentOf 0x5004 0 [] []) := by decide

/-- V6. -/
theorem test_fromHeader : segOf (exec .fromHeader (withBank (onesBank 0x5FFF 0 0))) =
    some { srcPort := 0xFFFF, dstPort := 0xFFFF, seq := 0xFFFFFFFF, ack := 0xFFFFFFFF, ctl := 0x5FFF, window := 0xFFFF,
           checksum := 0x1234, urgent := 0xFFFF, opt := [], pay := [], srcAddr := 0xFFFFFFFF, dstAddr := 0xFFFFFFFF } := by decide

/-- V7: IN.opt_len 41, and IN.opt_len 40 with IN_OPT[39] never written. -/
theorem test_fromHeader_checks :
    statusOf (exec .fromHeader (withBank (onesBank 0x5FFF 41 0))) = some 0x00008006 ∧
    statusOf (exec .fromHeader (withBank { onesBank 0x5FFF 40 0 with opt := Memory.writeBytes [] 0 (List.replicate 39 0x01) })) =
      some 0x00008005 := by decide

/-- V8, steps 2, 4 and 5. -/
theorem test_setField_packed :
    segOf (exec (.setField .flags) (stateOf { CodecUnit.reset with
      seg := some (segmentOf 0xA004 0 [] []), inp := { ackBank with ctl := some 0xA0FF } })) = some (segmentOf 0xA0FF 0 [] []) ∧
    segOf (exec (.setField .reserved) (stateOf { CodecUnit.reset with
      seg := some (segmentOf 0xA0FF 0 [] []), inp := { ackBank with ctl := some 0x0F00 } })) = some (segmentOf 0xAFFF 0 [] []) ∧
    segOf (exec (.setField .dataOffset) (stateOf { CodecUnit.reset with
      seg := some (segmentOf 0xAFFF 0 [] []), inp := { ackBank with ctl := some 0x5000 } })) = some (segmentOf 0x5FFF 0 [] []) := by
  decide

/-- V36: the 40 option bytes, then IN.opt_len 41. -/
theorem test_setField_options :
    segOf (exec (.setField .options) (stateOf { CodecUnit.reset with
      seg := some ackSegment,
      inp := { ackBank with optLen := some 40, opt := Memory.writeBytes [] 0 (List.replicate 39 0x01 ++ [0x00]) } })) =
      some (segmentOf 0x5010 0 (List.replicate 39 0x01 ++ [0x00]) []) ∧
    statusOf (exec (.setField .options) (stateOf { CodecUnit.reset with
      seg := some ackSegment, inp := { ackBank with optLen := some 41 } })) = some 0x00008106 := by decide

/-! Parsing -/

/-- V10. -/
theorem test_parse : segOf (exec .parse (toParse w6 20 0x0A000001 0x0A000002)) = some { ackSegment with checksum := 0x8AF8 } ∧
    res0Of (exec .parse (toParse w6 20 0x0A000001 0x0A000002)) = some 20 := by decide

/-- V14, V12 and V11. -/
theorem test_parse_offsets : segOf (exec .parse (toParse v14 20 0x08080808 0x0A010101)) = some shortSegment ∧
    segOf (exec .parse (toParse v12 24 0x0A000001 0x0A000002)) =
      some { segmentOf 0x6002 0 [0x02, 0x04, 0x05, 0xB4] [] with checksum := 0x8AF8 } ∧
    statusOf (exec .parse (toParse w6 19 0x0A000001 0x0A000002)) = some 0x00008002 := by decide

/-! Checksum engine -/

/-- V20; the last value by R164 (a). -/
theorem test_fold16 : fold16 0 = 0 ∧ fold16 0xFFFF = 0xFFFF ∧ fold16 0x10000 = 0x0001 ∧ fold16 0x1FFFE = 0xFFFF ∧
    fold16 0x1FFFF = 0x0001 ∧ fold16 0x2FFFE = 0x0001 ∧ fold16 0x7FFFFFFF = 0x7FFF := by decide

/-- V21. -/
theorem test_sum16 : sum16 [] = 0 ∧ sum16 [0xAB] = 0xAB00 ∧ sum16 [0x01, 0x02, 0x03] = 0x0402 ∧
    sum16 [0xFF, 0xFF, 0xFF, 0xFF] = 0x1FFFE := by decide

/-! Serialization -/

/-- V27 and V33: W6's bytes with capacity 20, nothing with capacity 19. -/
theorem test_serialize : bufOf 20 (exec .serialize (toSerialize ackSegment 20)) = some w6 ∧
    res0Of (exec .serialize (toSerialize ackSegment 20)) = some 20 ∧
    resultUnit (exec .serialize (toSerialize ackSegment 19)) =
      some { CodecUnit.reset with
        seg := some ackSegment, bufLen := some 19, code := .raised .bufferTooSmall, errSeen := true } := by decide

/-- V24 (a checksum of zero is written as it is), V25, and V31 (the layout check comes after the capacity check). -/
theorem test_serialize_corners :
    segmentChecksum (segmentOf 0x5010 0x8AF8 [] []) 5 = 0x0000 ∧ segmentChecksum (segmentOf 0x5010 0x8AF9 [] []) 5 = 0xFFFE ∧
    statusOf (exec .serialize (toSerialize shortSegment 10)) = some 0x00008101 ∧
    statusOf (exec .serialize (toSerialize shortSegment 12)) = some 0x00008103 := by decide

/-- V32. -/
theorem test_serializeFixup : bufOf 20 (exec .serializeFixup (toSerialize shortSegment 20)) =
    some [0x00, 0x35, 0xC0, 0x00, 0x00, 0x00, 0x00, 0x01, 0x00, 0x00, 0x00, 0x02, 0x50, 0x02, 0x10, 0x00, 0xC4, 0x98, 0x00, 0x00] ∧
    segOf (exec .serializeFixup (toSerialize shortSegment 20)) = some shortSegment := by decide

/-- V34: three option bytes, one pad byte, an odd payload. -/
theorem test_serializeFixup_padding :
    bufOf 25 (exec .serializeFixup (toSerialize
      { srcPort := 1, dstPort := 2, seq := 3, ack := 4, ctl := 0x5018, window := 0xFFFF, checksum := 0, urgent := 0,
        opt := [0x01, 0x01, 0x01], pay := [0xAB], srcAddr := 0x01020304, dstAddr := 0x05060708 } 25)) =
    some [0x00, 0x01, 0x00, 0x02, 0x00, 0x00, 0x00, 0x03, 0x00, 0x00, 0x00, 0x04, 0x60, 0x18, 0xFF, 0xFF, 0xE2, 0xA8, 0x00, 0x00,
          0x01, 0x01, 0x01, 0x00, 0xAB] := by decide

/-- W2: 20 after NEW_ACK, 12 after V14, 0 with data offset 0. -/
theorem test_getSize : res0Of (exec .getSize (holding ackSegment)) = some 20 ∧ res0Of (exec .getSize (holding shortSegment)) = some 12 ∧
    res0Of (exec .getSize (holding (segmentOf 0x0010 0 [] []))) = some 0 := by decide

/-- V38. -/
theorem test_tag : res0Of (exec .tag (holding ackSegment)) = some Config.tcpLayerTag ∧
    statusOf (exec .tag State.reset) = some 0x00008004 := ⟨rfl, rfl⟩

/-! Accessors, predicates and FORMAT: V40, V41 -/

theorem test_getSrcPort : res0Of (exec .getSrcPort (holding ackSegment)) = some 0x000004D2 := by decide
theorem test_getDstPort : res0Of (exec .getDstPort (holding ackSegment)) = some 0x00000050 := by decide
theorem test_getSeq : res0Of (exec .getSeq (holding ackSegment)) = some 0x000003E8 := by decide
theorem test_getAck : res0Of (exec .getAck (holding ackSegment)) = some 0x000007D0 := by decide
theorem test_getSrcAddr : res0Of (exec .getSrcAddr (holding ackSegment)) = some 0x0A000001 := by decide
theorem test_getDstAddr : res0Of (exec .getDstAddr (holding ackSegment)) = some 0x0A000002 := by decide

theorem test_getField_packed : res0Of (exec (.getField .dataOffset) (holding (segmentOf 0x5FFF 0 [] []))) = some 5 ∧
    res0Of (exec (.getField .reserved) (holding (segmentOf 0x5FFF 0 [] []))) = some 0x0000000F ∧
    res0Of (exec (.getField .flags) (holding (segmentOf 0x5FFF 0 [] []))) = some 0x000000FF := by decide

/-- V43. -/
theorem test_getField_options :
    (resultUnit (exec (.getField .options) (holding (segmentOf 0x6002 0 [0x02, 0x04, 0x05, 0xB4] [])))).map
      (fun u => (u.res0, u.inp.optLen, u.inp.opt.readBytes 0 4)) = some (some 4, some 4, some [0x02, 0x04, 0x05, 0xB4]) := by decide

/-- The flags of the eleven rows of V42. -/
def v42 : List Half := [0x10, 0x12, 0x04, 0x14, 0x11, 0x05, 0x03, 0x00, 0xFF, 0xEF, 0xEA]

def predicateColumn (i : Instr) : List (Option Word) := v42.map fun c => res0Of (exec i (holding (segmentOf c 0 [] [])))

theorem test_isAck : predicateColumn .isAck = [some 1, some 1, some 0, some 1, some 1, some 0, some 0, some 0, some 1, some 0, some 0] := by
  decide
theorem test_isRst : predicateColumn .isRst = [some 0, some 0, some 1, some 1, some 0, some 1, some 0, some 0, some 1, some 1, some 0] := by
  decide
theorem test_isSyn : predicateColumn .isSyn = [some 0, some 1, some 0, some 0, some 0, some 0, some 1, some 0, some 1, some 1, some 1] := by
  decide
theorem test_isFin : predicateColumn .isFin = [some 0, some 0, some 0, some 0, some 1, some 1, some 1, some 0, some 1, some 1, some 0] := by
  decide
theorem test_isRstOrFin :
    predicateColumn .isRstOrFin = [some 0, some 0, some 1, some 1, some 1, some 1, some 1, some 0, some 1, some 1, some 0] := by decide

/-- V50. -/
theorem test_format : res0Of (exec .format (holding ackSegment)) = some 0x412E2E2E ∧
    (resultUnit (exec .format (holding ackSegment))).bind (·.res1) = some 0x04D20050 ∧
    (resultUnit (exec .format (holding ackSegment))).bind (·.res2) = some Config.tcpLayerTag := ⟨rfl, rfl, rfl⟩

/-! The host interface -/

/-- One host access to unit 0 of a state. -/
def oneAccess (a : Access) (s : State) : Result := step { s with pending := [.access 0 a] }

/-- V60. -/
theorem test_reset_reads : replyOf (oneAccess (.read .w32 0x00004) State.reset) = some (.value 0x00000000) ∧
    replyOf (oneAccess (.read .w32 0x00008) State.reset) = some .undefined ∧
    replyOf (oneAccess (.read .w8 0x00100) State.reset) = some .undefined ∧
    replyOf (oneAccess (.read .w32 0x00000) State.reset) = some (.value 0x00000000) := by decide

/-- V62. -/
theorem test_readOnly_write : resultUnit (oneAccess (.write .w32 0x00004 0xFFFFFFFF) State.reset) = some CodecUnit.reset ∧
    resultUnit (oneAccess (.write .w32 0x00008 5) State.reset) = some CodecUnit.reset := by decide

/-- V63. -/
theorem test_narrow_write :
    (resultUnit (oneAccess (.write .w32 0x00028 0x12345678) State.reset)).map (readReg .inSrcPort) = some (some 0x00005678) ∧
    (resultUnit (oneAccess (.write .w32 0x00014 0xFFFF0014) State.reset)).map (readReg .bufLen) = some (some 0x00000014) := by decide

/-- 20_memory.md R61: a 32-bit write to IN_OPT[4] stores its most significant byte first; 10_state.md R47: offset 0x00018 is unmapped, an
8-bit read of STATUS is refused, and a 32-bit access at IN_OPT[40] is outside the array. -/
theorem test_array_write :
    (resultUnit (oneAccess (.write .w32 0x00104 0x01020304) State.reset)).map (fun u => u.inp.opt) =
      some [(4, 0x01), (5, 0x02), (6, 0x03), (7, 0x04)] ∧
    resultUnit (oneAccess (.read .w32 0x00018) State.reset) = none ∧ resultUnit (oneAccess (.read .w8 0x00004) State.reset) = none ∧
    resultUnit (oneAccess (.read .w32 0x00128) State.reset) = none ∧ resultUnit (oneAccess (.read .w32 0x00124) State.reset) ≠ none := by
  decide

/-- V9: an illegal word raises ILLEGAL_COMMAND whatever the state. -/
theorem test_illegal_word : statusOf (oneAccess (.write .w32 0x00000 0x00000E05) State.reset) = some 0x00008007 ∧
    statusOf (oneAccess (.write .w32 0x00000 0x00000205) State.reset) = some 0x00008004 := by decide

theorem test_withFetchWord : resultState (step (State.withFetchWord State.reset 32 0x00000001)) =
    resultState (exec .newAck State.reset) := by decide

/-! Witnesses: for each obligation with hypotheses, states and operands that meet them all, one for each clause. A clause about a payload
length in 1..PAYLOAD_MAX, or a capacity above BUF_CAP, has inputs only where the parameter allows it (00_scope.md R7), which the witness
says as a premise on the parameter. -/

theorem witness_StepRunsDecodedCommand : decode 0x00000003 = .ok .newRst ∧
    ({ State.reset with pending := [.access 0 (.write .w32 0x00000 3)] } : State).pending =
      .access State.reset.sel (.write .w32 0x00000 0x00000003) :: [] ∧ State.reset.pending = [] := by decide

theorem witness_IllegalWordsRaise : Claims.IllegalWord 0x00000051 ∧ Claims.IllegalWord 0x00001001 ∧ Claims.IllegalWord 0x00000101 ∧
    Claims.IllegalWord 0x00000E05 ∧ Claims.IllegalWord 0x00000F36 ∧ ¬ Claims.IllegalWord 0x00000D36 ∧
    Fid.legal .illegal14 = false ∧ Fid.legal .illegal15 = false ∧
    ({ State.reset with pending := [.access 0 (.write .w32 0x00000 0x00001001)] } : State).pending =
      .access State.reset.sel (.write .w32 0x00000 0x00001001) :: [] := by
  unfold Claims.IllegalWord
  exact ⟨by decide, by decide, by decide, by decide, by decide, by decide, rfl, rfl, rfl⟩

theorem witness_LegalWordsAre49 : (0x80000001 : Word).toNat / 0x1000 ≠ 0 ∧
    (0x00000D51 : Word).toNat / 0x1000 = 0 ∧ (0x00000D51 : Word).toNat % 0x100 ∉ Claims.opcodes := by decide

theorem witness_ControlConstructor :
    (withBank ackBank).unit.inp.srcAddr = some 0x0A000001 ∧ (withBank ackBank).unit.inp.dstAddr = some 0x0A000002 ∧
    (withBank ackBank).unit.inp.srcPort = some 1234 ∧ (withBank ackBank).unit.inp.dstPort = some 80 ∧
    (withBank ackBank).unit.inp.seq = some 1000 ∧ (withBank ackBank).unit.inp.ack = some 2000 ∧
    (withBank { ackBank with ack := none }).unit.inp.ack = none := by decide

theorem witness_NewAckSyn_then : ∃ t, exec .newAckSyn (withBank ackBank) = .next t ∧ t.unit.code = .ok := ⟨_, rfl, rfl⟩

theorem witness_NewRst_then : ∃ t g c, exec .newRst (withBank { ackBank with ctl := some 0x0014 }) = .next t ∧ t.unit.code = .ok ∧
    t.unit.seg = some g ∧ t.unit.inp.ctl = some c ∧ c.extractLsb' 0 8 = (0x14 : Byte) := ⟨_, _, _, rfl, rfl, rfl, rfl, rfl⟩

/-- A bank with all twelve scalars, 40 option bytes and n payload bytes. -/
def fullBank (n : Nat) : OperandBank :=
  { onesBank 0xF010 40 (BitVec.ofNat 16 n) with
    opt := Memory.writeBytes [] 0 (List.replicate 40 0x01), pay := Memory.writeBytes [] 0 (List.replicate n 0x68) }

theorem holds_writeBytes (bs : List Byte) : Claims.Holds (Memory.writeBytes [] 0 bs) 0 bs := by
  intro i hi
  rw [read_writeBytes, if_pos (by omega)]
  congr 1; omega

theorem toNat_payload {n : Nat} (h : n ≤ Config.payloadMax) : (BitVec.ofNat 16 n).toNat = n := by
  have := payloadMax_bound
  rw [BitVec.toNat_ofNat]; omega

/-- Options and payload both at the largest length they can have. -/
theorem witness_FromHeaderLoadsVerbatim :
    Claims.HeaderScalars (fullBank Config.payloadMax) ∧ (fullBank Config.payloadMax).optLen = some 40 ∧
    (fullBank Config.payloadMax).payLen = some (BitVec.ofNat 16 Config.payloadMax) ∧
    (40 : Byte).toNat ≤ 40 ∧ (BitVec.ofNat 16 Config.payloadMax).toNat ≤ Config.payloadMax ∧
    (List.replicate 40 (0x01 : Byte)).length = (40 : Byte).toNat ∧
    Claims.Holds (fullBank Config.payloadMax).opt 0 (List.replicate 40 0x01) ∧
    (List.replicate Config.payloadMax (0x68 : Byte)).length = (BitVec.ofNat 16 Config.payloadMax).toNat ∧
    Claims.Holds (fullBank Config.payloadMax).pay 0 (List.replicate Config.payloadMax 0x68) :=
  ⟨⟨rfl, rfl, rfl, rfl, rfl, rfl, rfl, rfl, rfl, rfl, rfl, rfl⟩, rfl, rfl, by decide, by rw [toNat_payload (Nat.le_refl _)], rfl,
    holds_writeBytes _, by rw [toNat_payload (Nat.le_refl _), List.length_replicate], holds_writeBytes _⟩

theorem witness_FromHeaderRaisesInOrder :
    ¬ Claims.HeaderScalars ackBank ∧
    (Claims.HeaderScalars (onesBank 0 41 0) ∧ (onesBank 0 41 0).optLen = some 41 ∧ (onesBank 0 41 0).payLen = some 0 ∧
      40 < (41 : Byte).toNat) ∧
    (Claims.HeaderScalars (onesBank 0 40 65476) ∧ Config.payloadMax < (65476 : Half).toNat) ∧
    (Claims.HeaderScalars (onesBank 0 40 0) ∧ (40 : Byte).toNat ≤ 40 ∧ (0 : Half).toNat ≤ Config.payloadMax ∧
      ∃ k, k < (40 : Byte).toNat ∧ (onesBank 0 40 0).opt.read k = none) ∧
    (1 ≤ Config.payloadMax → (1 : Half).toNat ≤ Config.payloadMax ∧ ∃ k, k < (1 : Half).toNat ∧ (onesBank 0 0 1).pay.read k = none) := by
  have := payloadMax_bound
  have h : (65476 : Half).toNat = 65476 := rfl
  unfold Claims.HeaderScalars
  exact ⟨by decide, by decide, ⟨by decide, by omega⟩, ⟨by decide, by decide, Nat.zero_le _, 39, by decide, rfl⟩,
    fun h => ⟨h, 0, by decide, rfl⟩⟩

theorem witness_SetsField : (holding ackSegment).unit.seg = some ackSegment ∧ (holding ackSegment).unit.inp.seq = none ∧
    (holding ackSegment).unit.inp.ctl = none ∧
    (∃ s : State, s.unit.seg = some ackSegment ∧ Claims.HeaderScalars s.unit.inp) :=
  ⟨rfl, rfl, rfl, stateOf { CodecUnit.reset with seg := some ackSegment, inp := fullBank 0 }, rfl,
    ⟨rfl, rfl, rfl, rfl, rfl, rfl, rfl, rfl, rfl, rfl, rfl, rfl⟩⟩

theorem witness_SetFieldSequencesCopyBytes :
    ((holding ackSegment).unit.inp.optLen = none ∧ (holding ackSegment).unit.inp.payLen = none) ∧
    ((onesBank 0 41 0).optLen = some 41 ∧ 40 < (41 : Byte).toNat) ∧
    ((onesBank 0 40 0).optLen = some 40 ∧ (40 : Byte).toNat ≤ 40 ∧ ∃ k, k < (40 : Byte).toNat ∧ (onesBank 0 40 0).opt.read k = none) ∧
    (Claims.Holds (fullBank 0).opt 0 (List.replicate 40 0x01) ∧ (fullBank 0).optLen = some 40) ∧
    Config.payloadMax < (65476 : Half).toNat ∧
    (Claims.Holds (fullBank Config.payloadMax).pay 0 (List.replicate Config.payloadMax 0x68) ∧
      (fullBank Config.payloadMax).payLen = some (BitVec.ofNat 16 Config.payloadMax)) := by
  have := payloadMax_bound
  have h : (65476 : Half).toNat = 65476 := rfl
  exact ⟨⟨rfl, rfl⟩, by decide, ⟨by decide, by decide, 39, by decide, rfl⟩, ⟨holds_writeBytes _, rfl⟩, by omega,
    holds_writeBytes _, rfl⟩

/-- Data offset 5, 15 (V15, with zeros for the fields) and 0. -/
theorem witness_ParseLoadsHeader : (20 : Half).toNat ≤ Config.bufCap ∧ (60 : Half).toNat ≤ Config.bufCap ∧
    (5 = (byteAt w6 12).toNat / 16 ∧ ∀ x, x < max 20 (4 * 5) →
      (toParse w6 20 0x0A000001 0x0A000002).unit.buf.read x = some (byteAt w6 x)) ∧
    (∀ x, x < max 20 (4 * 15) →
      (toParse (List.replicate 60 0xF0) 60 1 2).unit.buf.read x = some (byteAt (List.replicate 60 0xF0) x)) ∧
    (∀ x, x < max 20 (4 * 0) →
      (toParse (List.replicate 20 0x0F) 20 1 2).unit.buf.read x = some (byteAt (List.replicate 20 0x0F) x)) := by
  have h := bufCap_bounds
  have h1 : (20 : Half).toNat = 20 := rfl
  have h2 : (60 : Half).toNat = 60 := rfl
  exact ⟨by omega, by omega, by decide, by decide, by decide⟩

theorem witness_ParseRaisesInOrder :
    State.reset.unit.bufLen = none ∧
    ((toParse [] 19 1 2).unit.bufLen = some 19 ∧ (19 : Half).toNat ≤ Config.bufCap ∧ (19 : Half).toNat < 20) ∧
    (Config.bufCap < 65535 → Config.bufCap < (65535 : Half).toNat) ∧
    ((20 : Half).toNat ≤ Config.bufCap ∧ ∃ x, x < 20 ∧ (toParse (w6.take 19) 20 1 2).unit.buf.read x = none) ∧
    ((∀ x, x < 20 → (toParse v12 23 1 2).unit.buf.read x ≠ none) ∧ (toParse v12 23 1 2).unit.buf.read 12 = some 0x60 ∧
      (23 : Half).toNat < 4 * ((0x60 : Byte).toNat / 16)) ∧
    (4 * ((0x60 : Byte).toNat / 16) ≤ (24 : Half).toNat ∧
      ∃ x, 20 ≤ x ∧ x < 4 * ((0x60 : Byte).toNat / 16) ∧ (toParse (v12.take 23) 24 1 2).unit.buf.read x = none) := by
  have h := bufCap_bounds
  have h1 : (20 : Half).toNat = 20 := rfl
  have h2 : (19 : Half).toNat = 19 := rfl
  exact ⟨rfl, ⟨rfl, by omega, by decide⟩, id, ⟨by omega, 19, by decide, by decide⟩, by decide, by decide, 23, by decide, by decide,
    by decide⟩

/-- 40 option bytes and data offset 15 against capacity 60, and V1's segment against capacity 20. -/
theorem witness_SerializeEmitsSegment : (60 : Half).toNat ≤ Config.bufCap ∧ (20 : Half).toNat ≤ Config.bufCap ∧
    ConsistentLayout (segmentOf 0xF010 0 (List.replicate 40 0x01) []) ∧
    wireSize (segmentOf 0xF010 0 (List.replicate 40 0x01) []) ≤ (60 : Half).toNat ∧
    ConsistentLayout ackSegment ∧ wireSize ackSegment ≤ (20 : Half).toNat := by
  have h := bufCap_bounds
  have h1 : (20 : Half).toNat = 20 := rfl
  have h2 : (60 : Half).toNat = 60 := rfl
  exact ⟨by omega, by omega, by decide, by decide, by decide, by decide⟩

theorem witness_SerializeRaisesInOrder :
    State.reset.unit.seg = none ∧ (holding ackSegment).unit.bufLen = none ∧
    (Config.bufCap < 65535 → Config.bufCap < (65535 : Half).toNat) ∧ (12 : Half).toNat ≤ Config.bufCap ∧
    (11 : Half).toNat < 4 * (shortSegment.ctl.toNat / 0x1000) + shortSegment.pay.length ∧
    4 * (shortSegment.ctl.toNat / 0x1000) + shortSegment.pay.length ≤ (12 : Half).toNat ∧
    4 * (shortSegment.ctl.toNat / 0x1000) ≠ 20 + pad4 shortSegment.opt.length := by
  have h := bufCap_bounds
  have h1 : (12 : Half).toNat = 12 := rfl
  exact ⟨rfl, rfl, id, by omega, by decide, by decide, by decide⟩

theorem witness_SerializeFixupEmitsSegment :
    (20 : Half).toNat ≤ Config.bufCap ∧ (5 : BitVec 4).toNat = (20 + pad4 shortSegment.opt.length) / 4 ∧
    4 * (5 : BitVec 4).toNat + shortSegment.pay.length ≤ (20 : Half).toNat ∧
    (15 : BitVec 4).toNat = (20 + pad4 (segmentOf 0 0 (List.replicate 40 0x01) []).opt.length) / 4 ∧
    4 * (15 : BitVec 4).toNat ≤ (60 : Half).toNat ∧
    (19 : Half).toNat < 20 + pad4 shortSegment.opt.length + shortSegment.pay.length := by
  have h := bufCap_bounds
  have h1 : (20 : Half).toNat = 20 := rfl
  exact ⟨by omega, by decide, by decide, by decide, by decide, by decide⟩

theorem witness_SizesAgreeForConsistentLayout : (toSerialize ackSegment 19).unit.seg = some ackSegment ∧ ConsistentLayout ackSegment ∧
    (toSerialize ackSegment 19).unit.bufLen = some 19 ∧ (19 : Half).toNat ≤ Config.bufCap ∧
    (19 : Half).toNat + 1 = wireSize ackSegment := by
  have h := bufCap_bounds
  have h1 : (19 : Half).toNat = 19 := rfl
  exact ⟨rfl, by decide, rfl, by omega, by decide⟩

theorem witness_Query : (holding ackSegment).unit.seg = some ackSegment ∧ State.reset.unit.seg = none := ⟨rfl, rfl⟩

/-- Two buffers with different old contents, two stored checksums. -/
theorem witness_SerializeIgnoresOldBufferAndChecksum :
    (resultUnit (exec .serialize (toSerialize ackSegment 20))).map (·.code) = some .ok ∧
    (resultUnit (exec .serialize (stateOf { (toSerialize { ackSegment with checksum := 0x1234 } 20).unit with
      buf := Memory.writeBytes [] 0 v14 }))).map (·.code) = some .ok ∧
    (resultUnit (exec .serializeFixup (toSerialize ackSegment 20))).map (·.code) = some .ok := by decide

theorem witness_GetThenSetFieldKeepsSegment :
    SegmentGood (segmentOf 0xF010 0 (List.replicate 40 0x01) []) ∧
    (∃ t r, exec (.getField .options) (holding (segmentOf 0xF010 0 (List.replicate 40 0x01) [])) = .next t ∧
      exec (.setField .options) t = .next r) ∧
    ∃ t r, exec (.getField .payload) (holding (segmentOf 0xF010 0 [] [])) = .next t ∧ exec (.setField .payload) t = .next r :=
  ⟨⟨by decide, Nat.zero_le _⟩, ⟨_, _, rfl, rfl⟩, _, _, rfl, rfl⟩

theorem witness_PredicatesTestFlagBits : ∃ a b c, exec .isRst (holding ackSegment) = .next a ∧ exec .isFin (holding ackSegment) = .next b ∧
    exec .isRstOrFin (holding ackSegment) = .next c ∧ (holding ackSegment).unit.seg ≠ none :=
  ⟨_, _, _, rfl, rfl, rfl, by decide⟩

theorem witness_NoSegmentExactlyWhenNeeded : Claims.NeedsSegment (.setField .dstAddr) ∧ State.reset.unit.seg = none ∧
    ∃ t, exec .getSize State.reset = .next t ∧ t.unit.code = .raised .noSegment := ⟨rfl, rfl, _, rfl, rfl⟩

/-- Every command ends in a next state on small states, with OK and with a code raised. -/
theorem witness_RaiseChangesOnlyStatus :
    (∃ t, exec .getSeq (holding ackSegment) = .next t ∧ t.unit.code = .ok) ∧
    ∃ t, exec .parse State.reset = .next t ∧ t.unit.code = .raised .operandUnset := ⟨⟨_, rfl, rfl⟩, _, rfl, rfl⟩

/-- A unit with a segment, ERR_SEEN set, a result and a byte of each array. -/
def usedUnit : CodecUnit :=
  { CodecUnit.reset with
    seg := some ackSegment, errSeen := true, code := .raised .bufferTooSmall, res0 := some 20, bufLen := some 19,
    buf := [(59, 0xEE)], inp := { ackBank with opt := [(39, 0x01)] } }

/-- The system with unit 0 used and a read of STATUS pending. -/
def usedState (e : Event) : State := { stateOf usedUnit with pending := [e] }

theorem usedUnit_good : UnitGood usedUnit where
  opt := ⟨by decide, by decide⟩
  pay := ⟨by decide, fun _ h => by cases h⟩
  buf := ⟨by decide, fun c h => by
    have := bufCap_bounds
    cases h with
    | head => show 59 < _; omega
    | tail _ h => cases h⟩
  seg := fun g h => by cases h; exact ⟨by decide, Nat.zero_le _⟩
  sticky := fun _ _ => rfl

theorem usedState_good (e : Event) : StateGood (usedState e) where
  unit := usedUnit_good
  exists_ := numUnits_pos
  parkedRising := List.Pairwise.nil
  parkedGood := fun _ h => by cases h

theorem witness_StickyAndDefinedBits : StateGood (usedState (.access 0 (.write .w32 0x00000 0x00000022))) ∧
    (usedState (.access 0 (.write .w32 0x00000 0x00000022))).unit.errSeen = true ∧
    (usedState (.access 0 (.write .w32 0x00000 0x00000022))).unit.seg.isSome = true ∧
    (readReg .res0 (usedState (.access 0 (.write .w32 0x00000 0x00000022))).unit).isSome = true ∧
    ((arrayMemory .inOpt (usedState (.access 0 (.write .w32 0x00000 0x00000022))).unit).read 39).isSome = true ∧
    ∃ t, step (usedState (.access 0 (.write .w32 0x00000 0x00000022))) = .next t :=
  ⟨usedState_good _, rfl, rfl, rfl, rfl, _, rfl⟩

theorem witness_QueryFrame : ∀ i ∈ Claims.pureQueries, (resultState (exec i (holding ackSegment))).isSome = true ∧
    (resultState (exec i State.reset)).isSome = true := by decide

theorem witness_ConstructionFrame :
    (resultState (exec .newAck (withBank ackBank))).isSome = true ∧ (resultState (exec .newAckSyn (withBank ackBank))).isSome = true ∧
    (resultState (exec .newRst (withBank ackBank))).isSome = true ∧ (resultState (exec .fromHeader (withBank ackBank))).isSome = true ∧
    (resultState (exec (.setField .flags) (holding ackSegment))).isSome = true := by decide

theorem witness_SetFieldLeavesOtherFields : ∃ t h, exec (.setField .seq) (stateOf usedUnit) = .next t ∧
    (stateOf usedUnit).unit.seg = some ackSegment ∧ t.unit.seg = some h := ⟨_, _, rfl, rfl, rfl⟩

/-- The same header, with and without a byte after it. -/
theorem witness_ParseReadsOnlyTheHeader :
    (toParse w6 20 1 2).unit.buf.read 12 = some 0x50 ∧
    (∀ x, x < max 20 (4 * ((0x50 : Byte).toNat / 16)) →
      (toParse w6 20 1 2).unit.buf.read x = (toParse (w6 ++ [0x68]) 20 1 2).unit.buf.read x) ∧
    (toParse (w6 ++ [0x68]) 20 1 2).unit.bufLen = (toParse w6 20 1 2).unit.bufLen ∧
    (resultUnit (exec .parse (toParse w6 20 1 2))).map (·.code) = some .ok := by decide

theorem witness_SerializeFrame : (resultState (exec .serialize (toSerialize ackSegment 20))).isSome = true ∧
    (resultState (exec .serializeFixup (toSerialize shortSegment 20))).isSome = true ∧
    (serializedBytes ackSegment (dataOffset ackSegment.ctl)).length ≤ 20 ∧
    (serializedBytes shortSegment (BitVec.ofNat 4 (fixupOffset shortSegment))).length ≤ 20 := by decide

theorem witness_GetFieldSequenceFrame : (resultState (exec (.getField .options) (holding ackSegment))).isSome = true ∧
    (resultState (exec (.getField .payload) (holding ackSegment))).isSome = true := by decide

theorem witness_HostRegisterWriteThenRead : (0x48, 8) ∈ Claims.rwRegisters ∧ (0x4C, 16) ∈ Claims.rwRegisters ∧ (0x14, 16) ∈ Claims.rwRegisters ∧
    ∃ s : State, s.pending = .access s.sel (.write .w32 (BitVec.ofNat 18 0x48) 0x1FF) ::
      .access s.sel (.read .w32 (BitVec.ofNat 18 0x48)) :: [] :=
  ⟨by decide, by decide, by decide, { State.reset with
    pending := [.access 0 (.write .w32 0x00048 0x1FF), .access 0 (.read .w32 0x00048)] }, rfl⟩

theorem witness_StatusAndReadOnlyRegisters :
    (usedState (.access 0 (.write .w32 0x00010 5))).pending = .access 0 (.write .w32 (BitVec.ofNat 18 0x10) 5) :: [] ∧
    (usedState (.access 0 (.read .w32 0x00000))).pending = .access 0 (.read .w32 0x00000) :: [] ∧
    replyOf (step (usedState (.access 0 (.read .w32 0x00004)))) = some (.value 0x00008101) := by decide

theorem witness_HostReadHasNoSideEffect :
    (∃ t, step (usedState (.access 0 (.read .w8 0x00127))) = .next t ∧ t.lastRead = some (.value 1)) ∧
    readReg .inPayLen (usedState (.access 0 (.read .w32 (BitVec.ofNat 18 (hostRegOffset .inPayLen))))).unit = none :=
  ⟨⟨_, rfl, rfl⟩, rfl⟩

/-- The last aligned place of IN_OPT for each width, and the first and last of BUF. -/
theorem witness_HostArrayAccessIsBigEndian :
    (36 % widthBytes .w32 = 0 ∧ 36 + widthBytes .w32 ≤ arraySize .inOpt) ∧
    (38 % widthBytes .w16 = 0 ∧ 38 + widthBytes .w16 ≤ arraySize .inOpt) ∧
    (39 % widthBytes .w8 = 0 ∧ 39 + widthBytes .w8 ≤ arraySize .inOpt) ∧
    (0 % widthBytes .w32 = 0 ∧ 0 + widthBytes .w32 ≤ arraySize .buf) ∧
    (Config.bufCap - 1) % widthBytes .w8 = 0 ∧ Config.bufCap - 1 + widthBytes .w8 ≤ arraySize .buf ∧
    Claims.Holds (Memory.writeBytes [] 0 [0x01, 0x02, 0x03, 0x04]) 0 [0x01, 0x02, 0x03, 0x04] ∧
    (∃ j, j < widthBytes .w16 ∧ (arrayMemory .inOpt CodecUnit.reset).read (38 + j) = none) := by
  have h := bufCap_bounds
  exact ⟨by decide, by decide, by decide, ⟨by decide, by show 0 + 4 ≤ Config.bufCap; omega⟩, Nat.mod_one _,
    by show Config.bufCap - 1 + 1 ≤ Config.bufCap; omega, holds_writeBytes _, 0, by decide, rfl⟩

theorem witness_StuckExactlyAtRefusedAccess : Claims.Permitted .w32 0x4C ∧ ¬ Claims.Permitted .w32 0x18 ∧
    Claims.Permitted .w32 0x124 ∧ ¬ Claims.Permitted .w8 0x04 := by
  have h1 := payloadMax_bound
  have h2 := bufCap_bounds
  refine ⟨.inl (by decide), ?_, .inr ⟨(0x00100, 40), .head _, by decide⟩, ?_⟩
  · rintro (h | ⟨p, hp, h⟩)
    · revert h; decide
    · simp only [Claims.arrays, List.mem_cons, List.not_mem_nil, or_false] at hp
      rcases hp with rfl | rfl | rfl <;> simp at h
  · rintro (h | ⟨p, hp, h⟩)
    · revert h; decide
    · simp only [Claims.arrays, List.mem_cons, List.not_mem_nil, or_false] at hp
      rcases hp with rfl | rfl | rfl <;> simp at h

theorem witness_ResetEventResetsOneUnit : StateGood (usedState (.reset 0)) ∧ 0 < Config.numUnits ∧
    (usedState (.reset 0)).pending = .reset 0 :: [] := ⟨usedState_good _, numUnits_pos, rfl⟩

/-- Two systems whose unit 0 is the same and that read unit 0's STATUS. -/
theorem witness_UnitsShareNoState : StateGood (usedState (.access 0 (.read .w32 0x00004))) ∧
    (usedState (.access 0 (.read .w32 0x00004))).pending = .access 0 (.read .w32 0x00004) :: [] ∧
    (∃ t, step (usedState (.access 0 (.read .w32 0x00004))) = .next t) ∧
    ∃ f, step (usedState (.access 0 (.read .w32 0x00018))) = .fault f := ⟨usedState_good _, rfl, ⟨_, rfl⟩, _, rfl⟩

theorem witness_StepKeepsStateGood : StateGood (usedState (.access 0 (.write .w32 0x00000 0x00000A36))) ∧
    ∃ t, step (usedState (.access 0 (.write .w32 0x00000 0x00000A36))) = .next t := ⟨usedState_good _, _, rfl⟩

theorem witness_PermittedEventHasStep : StateGood (usedState (.access 0 (.read .w32 0x0004C))) ∧
    EventPermitted (.access 0 (.read .w32 0x0004C)) ∧ EventPermitted (.reset 0) :=
  ⟨usedState_good _, ⟨numUnits_pos, by decide⟩, numUnits_pos⟩

theorem witness_Checksum : 1 ≤ 0x1FFFE ∧ w6.length ≤ 65535 ∧ 18 ≤ (List.replicate 18 (0xFF : Byte)).length ∧ 19 < w6.length ∧ 7 < 8 ∧
    19 ≠ 16 ∧ 19 ≠ 17 ∧ 17 < w6.length := by decide

/-- Options of length 1, so one of the three kinds of padding, and a data offset that counts it. -/
theorem witness_ParseAfterSerialize : ConsistentLayout (segmentOf 0x6010 0 [0x01] []) ∧ ConsistentLayout ackSegment ∧
    ∃ t, exec .serialize (toSerialize (segmentOf 0x6010 0 [0x01] []) 24) = .next t ∧ t.unit.code = .ok := by
  refine ⟨by decide, by decide, ?_⟩
  have h : (resultUnit (exec .serialize (toSerialize (segmentOf 0x6010 0 [0x01] []) 24))).map (·.code) = some .ok := by decide
  cases he : exec .serialize (toSerialize (segmentOf 0x6010 0 [0x01] []) 24) with
  | next t => rw [he] at h; exact ⟨t, rfl, Option.some.inj h⟩
  | fault f => rw [he] at h; cases h
  | refused r => rw [he] at h; cases h

theorem witness_ReserializeIsIdentical : ConsistentLayout ackSegment ∧ ackSegment.opt.length % 4 = 0 ∧ ackSegment.pay = [] ∧
    ((resultState (exec .serialize (toSerialize ackSegment 20))).bind fun t =>
      (resultState (exec .parse (Claims.readyToParse t (wireSize ackSegment) ackSegment.srcAddr ackSegment.dstAddr))).bind fun r =>
        (resultUnit (exec .serialize r)).map (·.code)) = some .ok := by decide

theorem witness_Programs :
    (∃ s : State, s.pending = assemble s.sel (asmNewRstAck 0x0A000001 0x0A000002 1234 80 1000 2000)) ∧
    ∃ s : State, s.unit.seg = some ackSegment ∧ (List.replicate 40 (0x01 : Byte)).length ≤ 40 ∧
      s.pending = assemble s.sel (asmSetOptions (List.replicate 40 0x01)) :=
  ⟨⟨{ State.reset with pending := assemble 0 (asmNewRstAck 0x0A000001 0x0A000002 1234 80 1000 2000) }, rfl⟩,
    { holding ackSegment with pending := assemble 0 (asmSetOptions (List.replicate 40 0x01)) }, rfl, by decide, rfl⟩

end Sys2Proof.Tests
end

section
/-! The state and its registers: what the primitive writes of a unit can do, the invariant every step keeps, and the host's register
accesses. -/

namespace Sys2Proof.Machine

variable {s t : State} {u v : CodecUnit} {e : Event} {rest : List Event}

/-! The primitive writes -/

/-- Store consecutive bytes in an array of a unit, from index i on. -/
def storeBytes (a : HostArray) (i : Nat) (bs : List Byte) (u : CodecUnit) : CodecUnit :=
  setArrayMemory a ((arrayMemory a u).writeBytes i bs) u

/-- A unit after any sequence of the writes that commands and host accesses are made of: only a reset does more. Segments loaded
fit their storage, and bytes stored lie inside their array. -/
inductive UnitWrites (u : CodecUnit) : CodecUnit → Prop
  | none : UnitWrites u u
  | segment {v : CodecUnit} (g : Segment) (h : UnitWrites u v) (fits : SegmentGood g) : UnitWrites u (loadSegment g v)
  | result {v : CodecUnit} (w : Word) (h : UnitWrites u v) : UnitWrites u (setRes0 w v)
  | results {v : CodecUnit} (w0 w1 w2 : Word) (h : UnitWrites u v) :
      UnitWrites u { v with res0 := some w0, res1 := some w1, res2 := some w2 }
  | register {v : CodecUnit} (r : HostReg) (w : Word) (h : UnitWrites u v) : UnitWrites u (writeReg r w v)
  | bytes {v : CodecUnit} (a : HostArray) (i : Nat) (bs : List Byte) (h : UnitWrites u v) (inside : i + bs.length ≤ arraySize a) :
      UnitWrites u (storeBytes a i bs v)
  | ok {v : CodecUnit} (h : UnitWrites u v) : UnitWrites u (markOk v)
  | raised {v : CodecUnit} (e : Cause) (h : UnitWrites u v) : UnitWrites u (raise e v)

section WriteReg
variable (r : HostReg) (w : Word) (u : CodecUnit)

@[simp] theorem writeReg_seg : (writeReg r w u).seg = u.seg := by cases r <;> rfl
@[simp] theorem writeReg_buf : (writeReg r w u).buf = u.buf := by cases r <;> rfl
@[simp] theorem writeReg_inp_opt : (writeReg r w u).inp.opt = u.inp.opt := by cases r <;> rfl
@[simp] theorem writeReg_inp_pay : (writeReg r w u).inp.pay = u.inp.pay := by cases r <;> rfl
@[simp] theorem writeReg_code : (writeReg r w u).code = u.code := by cases r <;> rfl
@[simp] theorem writeReg_errSeen : (writeReg r w u).errSeen = u.errSeen := by cases r <;> rfl
@[simp] theorem writeReg_res0 : (writeReg r w u).res0 = u.res0 := by cases r <;> rfl
@[simp] theorem writeReg_res1 : (writeReg r w u).res1 = u.res1 := by cases r <;> rfl
@[simp] theorem writeReg_res2 : (writeReg r w u).res2 = u.res2 := by cases r <;> rfl

@[simp] theorem arrayMemory_writeReg (a : HostArray) : arrayMemory a (writeReg r w u) = arrayMemory a u := by
  cases a <;> simp [arrayMemory]

@[simp] theorem statusWord_writeReg : statusWord (writeReg r w u) = statusWord u := by
  simp [statusWord, segValid]

/-- What was written to a register is a value. -/
theorem readReg_writeReg_isSome (h : (readReg r u).isSome) : (readReg r (writeReg r w u)).isSome := by
  cases r
  case cmd | status | res0 | res1 | res2 => exact h
  all_goals rfl

end WriteReg

/-! What a command writes -/

theorem controlSegment_good (flags : Byte) (o : ControlOperands) : SegmentGood (controlSegment flags o) :=
  ⟨Nat.zero_le _, Nat.zero_le _⟩

/-- The largest declared header leaves 40 option bytes (41_parse.md R143). -/
theorem optionsBytes_le (hdr : List Byte) : optionsBytes (declaredHeader hdr) ≤ Config.optMax := by
  have hd : ((byteAt hdr 12).extractLsb' 4 4).toNat < 16 := BitVec.isLt _
  unfold optionsBytes declaredHeader
  simp only [Config.optMax]
  split <;> omega

theorem fixupSerialized_length {g : Segment} (hg : SegmentGood g) :
    (serializedBytes g (BitVec.ofNat 4 (fixupOffset g))).length = fixupSize g := by
  have hdw : (BitVec.ofNat 4 (fixupOffset g)).toNat = fixupOffset g := toNat_fixupOffset hg.optFits
  rw [length_serializedBytes_exact (by rw [hdw, four_fixupOffset]), hdw]
  rfl

/-- GET_FIELD's copy of the options is a write of IN_OPT and of IN.opt_len. -/
theorem copyOut_options (g : Segment) (u : CodecUnit) :
    ({ u with inp := copyOut .options g u.inp } : CodecUnit) =
      writeReg .inOptLen (BitVec.ofNat 32 g.opt.length) (storeBytes .inOpt 0 g.opt u) := by
  simp [copyOut, writeReg, storeBytes, setArrayMemory, arrayMemory]

/-- GET_FIELD's copy of the payload is a write of IN_PAY and of IN.pay_len. -/
theorem copyOut_payload (g : Segment) (u : CodecUnit) :
    ({ u with inp := copyOut .payload g u.inp } : CodecUnit) =
      writeReg .inPayLen (BitVec.ofNat 32 g.pay.length) (storeBytes .inPay 0 g.pay u) := by
  simp [copyOut, writeReg, storeBytes, setArrayMemory, arrayMemory]

theorem copyOut_writes {g : Segment} (f : Fid) (hg : SegmentGood g) :
    UnitWrites u { u with inp := copyOut f g u.inp } := by
  cases f
  case options =>
    rw [copyOut_options]
    exact .register _ _ (.bytes _ _ _ .none (by rw [Nat.zero_add]; exact hg.optFits))
  case payload =>
    rw [copyOut_payload]
    exact .register _ _ (.bytes _ _ _ .none (by rw [Nat.zero_add]; exact hg.payFits))
  all_goals exact .none

theorem emit_writes {g : Segment} {dw : BitVec 4} (h : (serializedBytes g dw).length ≤ Config.bufCap) :
    UnitWrites u (emit g dw u) :=
  .result _ (.bytes .buf 0 _ .none (by simpa [arraySize] using h))

theorem newControl_writes {flags : Byte} (h : newControl flags u = .ok v) : UnitWrites u v := by
  obtain ⟨o, -, rfl⟩ := newControl_ok h
  exact .segment _ .none (controlSegment_good flags o)

theorem query_writes {f : Segment → Word} (h : query f u = .ok v) : UnitWrites u v := by
  obtain ⟨g, -, rfl⟩ := query_ok h
  exact .result _ .none

/-- A command that succeeds on a good unit makes primitive writes only. -/
theorem commandOf_writes (hu : UnitGood u) {i : Instr} (h : commandOf i u = .ok v) : UnitWrites u v := by
  cases i with
  | newAck | newAckSyn | newRst => exact newControl_writes h
  | fromHeader =>
    obtain ⟨o, opt, pay, -, hol, hpl, hopt, hpay, rfl⟩ := fromHeaderCommand_ok h
    exact .segment _ .none ⟨(readBytes_length hopt).trans_le hol, (readBytes_length hpay).trans_le hpl⟩
  | setField f =>
    obtain ⟨g, g', hg, hr, rfl⟩ := setFieldCommand_ok h
    exact .segment _ .none (replaceField_good (hu.seg g hg) hr)
  | parse =>
    obtain ⟨len, sa, da, hdr, opt, -, -, -, -, -, -, -, hopt, rfl⟩ := parseCommand_ok h
    exact .result _ (.segment _ .none ⟨(readBytes_length hopt).trans_le (optionsBytes_le hdr), Nat.zero_le _⟩)
  | serialize =>
    obtain ⟨g, cap, -, hc, hsize, hlay, rfl⟩ := serializeCommand_ok h
    obtain ⟨-, -, -, hcap⟩ := capacityOperand_ok hc
    exact emit_writes ((length_serializedBytes_exact hlay).trans_le (hsize.trans hcap))
  | serializeFixup =>
    obtain ⟨g, cap, hg, hc, hsize, rfl⟩ := serializeFixupCommand_ok h
    obtain ⟨-, -, -, hcap⟩ := capacityOperand_ok hc
    exact emit_writes ((fixupSerialized_length (hu.seg g hg)).trans_le (hsize.trans hcap))
  | getField f =>
    obtain ⟨g, w, hg, -, rfl⟩ := getFieldCommand_ok h
    exact .result _ (copyOut_writes f (hu.seg g hg))
  | format =>
    obtain ⟨g, -, rfl⟩ := formatCommand_ok h
    exact .results _ _ _ .none
  | getSize | tag | getSrcPort | getDstPort | getSeq | getAck | getSrcAddr | getDstAddr | isAck | isRst | isSyn | isFin
  | isRstOrFin => exact query_writes h

/-! What an event does -/

/-- t differs from s at most in the unit being accessed and in what the host has read. -/
structure SameElsewhere (s t : State) : Prop where
  sel : t.sel = s.sel
  parked : t.parked = s.parked
  pending : t.pending = s.pending

theorem exec_writes (hu : UnitGood s.unit) {i : Instr} (h : exec i s = .next t) :
    SameElsewhere s t ∧ UnitWrites s.unit t.unit := by
  rw [exec_eq_complete] at h
  rcases complete_cases h with ⟨v, hv, rfl⟩ | ⟨c, -, rfl⟩
  · exact ⟨⟨rfl, rfl, rfl⟩, .ok (commandOf_writes hu hv)⟩
  · exact ⟨⟨rfl, rfl, rfl⟩, .raised c .none⟩

theorem runCommandWord_writes (hu : UnitGood s.unit) {w : Word} (h : runCommandWord w s = .next t) :
    SameElsewhere s t ∧ UnitWrites s.unit t.unit := by
  cases hd : decode w with
  | ok i => exact exec_writes hu (by rwa [runCommandWord_ok hd] at h)
  | error d =>
    rw [runCommandWord_error hd] at h
    cases h
    exact ⟨⟨rfl, rfl, rfl⟩, .raised _ .none⟩

@[simp] theorem length_busBytes (w : Width) (x : Word) : (busBytes w x).length = widthBytes w := by cases w <;> rfl

theorem hostWrite_writes {w : Width} {off : Offset} {g : Target} (x : Word) (h : resolve w off = .ok g) :
    UnitWrites u (hostWrite w g x u) := by
  cases g with
  | reg r => exact .register r x .none
  | bytes a i => exact .bytes a i _ .none (by simpa using (resolve_eq_bytes h).2.1)

/-- A host access to a good unit makes primitive writes only, and none outside that unit. -/
theorem runAccess_writes (hu : UnitGood s.unit) {a : Access} (h : runAccess a s = .next t) :
    SameElsewhere s t ∧ UnitWrites s.unit t.unit := by
  rcases runAccess_cases h with ⟨w, off, g, -, -, rfl⟩ | ⟨w, off, x, -, -, hc⟩ | ⟨w, off, x, g, -, hg, -, rfl⟩
  · exact ⟨⟨rfl, rfl, rfl⟩, .none⟩
  · exact runCommandWord_writes hu hc
  · exact ⟨⟨rfl, rfl, rfl⟩, hostWrite_writes x hg⟩

/-! The invariant of a unit -/

theorem unitGood_reset : UnitGood CodecUnit.reset where
  opt := good_nil
  pay := good_nil
  buf := good_nil
  seg := by simp
  sticky := by simp

theorem UnitGood.storeBytes {a : HostArray} {i : Nat} {bs : List Byte} (hu : UnitGood u)
    (h : i + bs.length ≤ arraySize a) : UnitGood (storeBytes a i bs u) := by
  cases a with
  | inOpt => exact { hu with opt := good_writeBytes hu.opt h }
  | inPay => exact { hu with pay := good_writeBytes hu.pay h }
  | buf => exact { hu with buf := good_writeBytes hu.buf h }

theorem UnitGood.writeReg (r : HostReg) (w : Word) (hu : UnitGood u) : UnitGood (writeReg r w u) where
  opt := by simpa using hu.opt
  pay := by simpa using hu.pay
  buf := by simpa using hu.buf
  seg := by simpa using hu.seg
  sticky := by simpa using hu.sticky

/-- The primitive writes keep the invariant of a unit. -/
theorem UnitWrites.good (h : UnitWrites u v) (hu : UnitGood u) : UnitGood v := by
  induction h with
  | none => exact hu
  | segment g _ fits ih => exact { ih with seg := fun g' hg' => Option.some.inj hg' ▸ fits }
  | result w _ ih | results w0 w1 w2 _ ih => exact { ih with }
  | register r w _ ih => exact ih.writeReg r w
  | bytes a i bs _ inside ih => exact ih.storeBytes inside
  | ok _ ih => exact { ih with sticky := by simp }
  | raised e _ ih => exact { ih with sticky := fun _ _ => rfl }

/-! The invariant of the system -/

theorem UnitGood.of_parked (hs : StateGood s) (i : Nat) : UnitGood (parkedUnit s.parked i) := by
  unfold parkedUnit
  cases hg : assocGet i s.parked with
  | none => exact unitGood_reset
  | some x => exact (hs.parkedGood _ (mem_of_assocGet hg)).1

/-- Every unit of a good state is good. -/
theorem StateGood.unitAt (hs : StateGood s) (i : Nat) : UnitGood (s.unitAt i) := by
  unfold State.unitAt
  split
  · exact hs.unit
  · exact UnitGood.of_parked hs i

theorem parkUnit_rising {l : List (Nat × CodecUnit)} {i : Nat} {x : CodecUnit} (h : l.Pairwise fun p q => p.1 < q.1) :
    (parkUnit i x l).Pairwise fun p q => p.1 < q.1 := by
  unfold parkUnit
  split
  · exact assocDrop_rising h
  · exact assocPut_rising h

/-- What is listed after a unit is put aside: that unit, if it is not in its reset state, and what was listed before. -/
theorem mem_parkUnit {l : List (Nat × CodecUnit)} {i : Nat} {x : CodecUnit} {p : Nat × CodecUnit}
    (h : p ∈ parkUnit i x l) : p = (i, x) ∧ x ≠ CodecUnit.reset ∨ p ∈ l := by
  unfold parkUnit at h
  split at h
  · exact .inr (mem_assocDrop h)
  · next hx => exact (mem_assocPut h).imp_left fun hp => ⟨hp, hx⟩

/-- Turning to a unit keeps the invariant: the unit turned to is no longer listed, the one left is listed in its place. -/
theorem selectUnit_good (hs : StateGood s) {i : Nat} (h : selectUnit i s = some t) : StateGood t := by
  unfold selectUnit at h
  split at h
  · cases h; exact hs
  · next hi =>
    split at h
    · next hlt =>
      cases h
      refine ⟨UnitGood.of_parked hs i, hlt, parkUnit_rising (assocDrop_rising hs.parkedRising), fun p hp => ?_⟩
      rcases mem_parkUnit hp with ⟨rfl, hx⟩ | hp
      · exact ⟨hs.unit, hs.exists_, Ne.symm hi, hx⟩
      · obtain ⟨hgood, hex, -, hreset⟩ := hs.parkedGood p (mem_assocDrop hp)
        exact ⟨hgood, hex, ne_of_mem_assocDrop hs.parkedRising hp, hreset⟩
    · cases h

theorem SameElsewhere.good (h : SameElsewhere s t) (hs : StateGood s) (hu : UnitGood t.unit) : StateGood t where
  unit := hu
  exists_ := h.sel ▸ hs.exists_
  parkedRising := h.parked ▸ hs.parkedRising
  parkedGood := by rw [h.parked, h.sel]; exact hs.parkedGood

theorem StateGood.withPending (hs : StateGood s) : StateGood { s with pending := rest } := { hs with }

/-- Everything a step with a pending event does in a good state: it turns to the event's unit and there resets it, or makes
primitive writes to it. -/
theorem step_event (hs : StateGood s) (hp : s.pending = e :: rest) (h : step s = .next t) :
    ∃ r, selectUnit (eventUnit e) { s with pending := rest } = some r ∧ SameElsewhere r t ∧
      (e = .reset (eventUnit e) ∧ t.unit = CodecUnit.reset ∨ UnitWrites r.unit t.unit) := by
  rw [step_cons hp] at h
  cases e with
  | access i a =>
    simp only [runEvent] at h
    split at h
    · cases h
    · next r hr =>
      obtain ⟨hsame, hw⟩ := runAccess_writes (selectUnit_good hs.withPending hr).unit h
      exact ⟨r, hr, hsame, .inr hw⟩
  | reset i =>
    simp only [runEvent] at h
    split at h
    · cases h
    · next r hr => cases h; exact ⟨r, hr, ⟨rfl, rfl, rfl⟩, .inl ⟨rfl, rfl⟩⟩

/-- A step other than a reset of unit i makes primitive writes to unit i, or none. -/
theorem step_unitAt_writes (hs : StateGood s) (hp : s.pending = e :: rest) (h : step s = .next t) {i : Nat}
    (he : e ≠ .reset i) : UnitWrites (s.unitAt i) (t.unitAt i) := by
  obtain ⟨r, hr, hsame, hunit⟩ := step_event hs hp h
  obtain ⟨hsel, -, -, -, hat⟩ := selectUnit_spec (s := { s with pending := rest }) hs.parkedRising hr
  rw [show s.unitAt i = r.unitAt i from (hat i).symm]
  unfold State.unitAt
  rw [hsame.sel, hsame.parked]
  split
  · next hi =>
    rcases hunit with ⟨hreset, -⟩ | hw
    · exact absurd (hreset.trans (by rw [hi, hsel])) he
    · exact hw
  · exact .none

/-- Settles O50: every unit is in its reset state, and none is held aside. -/
theorem resetIsGood : Obligations.ResetIsGood where
  unit := unitGood_reset
  exists_ := numUnits_pos
  parkedRising := .nil
  parkedGood := by simp

/-- Settles O49: turning to a unit keeps the invariant, and so do a reset and the primitive writes. -/
theorem stepKeepsStateGood : Obligations.StepKeepsStateGood := by
  intro s t hs h
  cases hp : s.pending with
  | nil =>
    rw [step_idle hp] at h
    cases h
    exact hs
  | cons e rest =>
    obtain ⟨r, hr, hsame, hunit⟩ := step_event hs hp h
    have hrgood : StateGood r := selectUnit_good hs.withPending hr
    refine hsame.good hrgood ?_
    rcases hunit with ⟨-, hreset⟩ | hw
    · rw [hreset]; exact unitGood_reset
    · exact hw.good hrgood.unit

/-! Defined-bits -/

/-- Every register and array byte that holds a value in u holds one in v. -/
structure KeepsDefined (u v : CodecUnit) : Prop where
  regs : ∀ r : HostReg, (readReg r u).isSome → (readReg r v).isSome
  bytes : ∀ (a : HostArray) (x : Nat), ((arrayMemory a u).read x).isSome → ((arrayMemory a v).read x).isSome

theorem KeepsDefined.trans {w : CodecUnit} (h : KeepsDefined u v) (h' : KeepsDefined v w) : KeepsDefined u w :=
  ⟨fun r => h'.regs r ∘ h.regs r, fun a x => h'.bytes a x ∘ h.bytes a x⟩

/-- With the operand bank, BUF and BUF_LEN unchanged, only the results could lose a value. -/
theorem KeepsDefined.of_results (hinp : v.inp = u.inp) (hbuf : v.buf = u.buf) (hlen : v.bufLen = u.bufLen)
    (h0 : u.res0.isSome → v.res0.isSome) (h1 : u.res1.isSome → v.res1.isSome) (h2 : u.res2.isSome → v.res2.isSome) :
    KeepsDefined u v where
  regs r := by
    cases r
    case res0 => exact h0
    case res1 => exact h1
    case res2 => exact h2
    all_goals simp [readReg, hinp, hlen]
  bytes a x := by cases a <;> simp [arrayMemory, hinp, hbuf]

theorem KeepsDefined.writeReg (r : HostReg) (w : Word) (u : CodecUnit) : KeepsDefined u (writeReg r w u) where
  regs r' h := by
    by_cases hr : r' = r
    · subst hr; exact readReg_writeReg_isSome _ w u h
    · rwa [readReg_writeReg_other hr]
  bytes a x h := by rwa [arrayMemory_writeReg]

theorem read_writeBytes_isSome {m : Memory} {x : Nat} (i : Nat) (bs : List Byte) (h : (m.read x).isSome) :
    ((m.writeBytes i bs).read x).isSome := by
  rw [read_writeBytes]
  split
  · simp; omega
  · exact h

theorem arrayMemory_setArrayMemory_other {a a' : HostArray} (h : a' ≠ a) (m : Memory) (u : CodecUnit) :
    arrayMemory a' (setArrayMemory a m u) = arrayMemory a' u := by
  cases a with
  | inOpt => cases a' with
    | inOpt => exact absurd rfl h
    | inPay | buf => rfl
  | inPay => cases a' with
    | inPay => exact absurd rfl h
    | inOpt | buf => rfl
  | buf => cases a' with
    | buf => exact absurd rfl h
    | inOpt | inPay => rfl

@[simp] theorem readReg_setArrayMemory (r : HostReg) (a : HostArray) (m : Memory) (u : CodecUnit) :
    readReg r (setArrayMemory a m u) = readReg r u := by
  cases a <;> cases r <;> rfl

theorem KeepsDefined.storeBytes (a : HostArray) (i : Nat) (bs : List Byte) (u : CodecUnit) :
    KeepsDefined u (storeBytes a i bs u) where
  regs r h := by rwa [Machine.storeBytes, readReg_setArrayMemory]
  bytes a' x h := by
    unfold Machine.storeBytes
    by_cases ha : a' = a
    · subst ha
      rw [arrayMemory_setArrayMemory]
      exact read_writeBytes_isSome i bs h
    · rwa [arrayMemory_setArrayMemory_other ha]

/-- The primitive writes clear no defined-bit. -/
theorem UnitWrites.keepsDefined (h : UnitWrites u v) : KeepsDefined u v := by
  induction h with
  | none => exact ⟨fun _ => id, fun _ _ => id⟩
  | segment _ _ _ ih | ok _ ih | raised _ _ ih => exact ih.trans (.of_results rfl rfl rfl id id id)
  | result _ _ ih => exact ih.trans (.of_results rfl rfl rfl (fun _ => rfl) id id)
  | results _ _ _ _ ih => exact ih.trans (.of_results rfl rfl rfl (fun _ => rfl) (fun _ => rfl) fun _ => rfl)
  | register r w _ ih => exact ih.trans (.writeReg r w _)
  | bytes a i bs _ _ ih => exact ih.trans (.storeBytes a i bs _)

/-- Settles O33: any other event makes only primitive writes to the unit. -/
theorem definedBitsClearedOnlyByReset : Obligations.DefinedBitsClearedOnlyByReset := by
  intro s t e rest i hs hp he h
  obtain ⟨hregs, hbytes⟩ := (step_unitAt_writes hs hp h he).keepsDefined
  exact ⟨hregs, hbytes⟩

/-! Progress -/

theorem runCommandWord_total (w : Word) (s : State) : ∃ t, runCommandWord w s = .next t := by
  cases hd : decode w with
  | ok i => exact ⟨_, (runCommandWord_ok hd).trans (exec_eq_complete i s)⟩
  | error d => exact ⟨_, runCommandWord_error hd⟩

/-- A permitted write that is not a CMD write is stored. -/
theorem runAccess_store {w : Width} {off : Offset} {g : Target} (x : Word) (s : State) (hg : resolve w off = .ok g)
    (hc : g ≠ .reg .cmd) : runAccess (.write w off x) s = .next (s.setUnit (hostWrite w g x s.unit)) := by
  simp only [runAccess, hg]

/-- An access the rules permit has a step. -/
theorem runAccess_total {a : Access} (h : accessPermitted a = true) (s : State) : ∃ t, runAccess a s = .next t := by
  cases a with
  | read w off =>
    cases hg : resolve w off with
    | error f => simp [accessPermitted, hg, Except.isOk, Except.toBool] at h
    | ok g => exact ⟨_, by simp only [runAccess, hg]; rfl⟩
  | write w off x =>
    cases hg : resolve w off with
    | error f => simp [accessPermitted, hg, Except.isOk, Except.toBool] at h
    | ok g =>
      by_cases hc : g = .reg .cmd
      · subst hc
        obtain ⟨t, ht⟩ := runCommandWord_total x s
        exact ⟨t, by simp only [runAccess, hg, ht]⟩
      · exact ⟨_, runAccess_store x s hg hc⟩

theorem selectUnit_total {i : Nat} (h : i < Config.numUnits) (s : State) : ∃ r, selectUnit i s = some r := by
  refine Option.ne_none_iff_exists'.1 fun hn => ?_
  have hge : Config.numUnits ≤ i := (selectUnit_none.1 hn).2
  omega

theorem runEvent_total (h : EventPermitted e) (s : State) : ∃ t, runEvent e s = .next t := by
  cases e with
  | access i a =>
    obtain ⟨hi, ha⟩ := h
    obtain ⟨r, hr⟩ := selectUnit_total hi s
    obtain ⟨t, ht⟩ := runAccess_total ha r
    exact ⟨t, by simp only [runEvent, hr, ht]⟩
  | reset i =>
    obtain ⟨r, hr⟩ := selectUnit_total h s
    exact ⟨_, by simp only [runEvent, hr]; rfl⟩

/-- Settles O51: the unit is there to turn to, every command ends in a next state, and neither touches the pending list. -/
theorem permittedEventHasStep : Obligations.PermittedEventHasStep := by
  intro s e rest hs hp he
  obtain ⟨t, ht⟩ := runEvent_total he { s with pending := rest }
  have hstep : step s = .next t := (step_cons hp).trans ht
  obtain ⟨r, hr, hsame, -⟩ := step_event hs hp hstep
  obtain ⟨-, -, hpending, -⟩ := selectUnit_spec (s := { s with pending := rest }) hs.parkedRising hr
  exact ⟨t, hstep, hsame.pending.trans hpending⟩

/-! The host's register accesses -/

/-- The host reads a register. -/
theorem step_readReg {r : HostReg}
    (hp : s.pending = .access s.sel (.read .w32 (BitVec.ofNat 18 (hostRegOffset r))) :: rest) :
    step s = .next { s with pending := rest, lastRead := some (readReply (readReg r s.unit)) } := by
  rw [step_access hp]
  simp only [runAccess, resolve_reg, hostRead]

/-- The host writes a register that starts no command. -/
theorem step_writeReg {r : HostReg} {x : Word}
    (hp : s.pending = .access s.sel (.write .w32 (BitVec.ofNat 18 (hostRegOffset r)) x) :: rest) (hr : r ≠ .cmd) :
    step s = .next { s with pending := rest, unit := writeReg r x s.unit } := by
  rw [step_access hp]
  exact runAccess_store x _ (resolve_reg r) (by simpa using hr)

/-- A stored low part, zero-extended to the bus (10_state.md R48). -/
theorem setWidth_setWidth_word (n : Nat) (x : Word) : (x.setWidth n).setWidth 32 = BitVec.ofNat 32 (x.toNat % 2 ^ n) := by
  rw [← BitVec.ofNat_toNat 32 (x.setWidth n), BitVec.toNat_setWidth]

theorem word_eq_ofNat_mod (x : Word) : x = BitVec.ofNat 32 (x.toNat % 2 ^ 32) := by
  rw [← setWidth_setWidth_word, BitVec.setWidth_eq, BitVec.setWidth_eq]

/-- Each entry of the map is a register that reads back the implemented low bits of what was written. -/
theorem rwRegisters_readBack : ∀ p ∈ Claims.rwRegisters,
    ∃ r : HostReg, hostRegOffset r = p.1 ∧ r ≠ .cmd ∧
      ∀ (x : Word) (u : CodecUnit), readReg r (writeReg r x u) = some (BitVec.ofNat 32 (x.toNat % 2 ^ p.2)) := by
  have narrow := fun n x (_ : CodecUnit) => congrArg some (setWidth_setWidth_word n x)
  have wide := fun x (_ : CodecUnit) => congrArg some (word_eq_ofNat_mod x)
  simp only [Claims.rwRegisters, List.forall_mem_cons]
  exact ⟨⟨.bufLen, rfl, nofun, narrow 16⟩,
    ⟨.inSrcAddr, rfl, nofun, wide⟩, ⟨.inDstAddr, rfl, nofun, wide⟩,
    ⟨.inSrcPort, rfl, nofun, narrow 16⟩, ⟨.inDstPort, rfl, nofun, narrow 16⟩,
    ⟨.inSeq, rfl, nofun, wide⟩, ⟨.inAck, rfl, nofun, wide⟩,
    ⟨.inCtl, rfl, nofun, narrow 16⟩, ⟨.inWindow, rfl, nofun, narrow 16⟩,
    ⟨.inChecksum, rfl, nofun, narrow 16⟩, ⟨.inUrgent, rfl, nofun, narrow 16⟩,
    ⟨.inOptLen, rfl, nofun, narrow 8⟩, ⟨.inPayLen, rfl, nofun, narrow 16⟩, nofun⟩

/-- Settles O41: the write stores the register and the read that follows returns what it holds. -/
theorem hostRegisterWriteThenRead : Obligations.HostRegisterWriteThenRead := by
  intro s off n x rest hmem hp
  obtain ⟨r, rfl, hcmd, hback⟩ := rwRegisters_readBack _ hmem
  refine ⟨_, step_writeReg hp hcmd, ?_, writeReg_seg r x _, writeReg_buf r x _, writeReg_inp_opt r x _,
    writeReg_inp_pay r x _, statusWord_writeReg r x _, writeReg_res0 r x _, writeReg_res1 r x _, writeReg_res2 r x _,
    fun r' hr' => readReg_writeReg_other (fun h => hr' (congrArg hostRegOffset h)) x _⟩
  rw [step_readReg (r := r) rfl]
  simp only [hback, readReply]

/-- A concatenation as a sum: the first part above the second. -/
theorem toNat_append_eq_add {m n : Nat} (x : BitVec m) (y : BitVec n) : (x ++ y).toNat = 2 ^ n * x.toNat + y.toNat := by
  rw [BitVec.toNat_append, ← Nat.shiftLeft_add_eq_or_of_lt y.isLt, Nat.shiftLeft_eq, Nat.mul_comm]

/-- The fields of STATUS in their places (10_state.md R43). -/
theorem statusWord_toNat (u : CodecUnit) : (statusWord u).toNat =
    (codeByte u.code).toNat + (if u.seg.isSome then 0x100 else 0) + (if u.errSeen then 0x8000 else 0) := by
  simp only [statusWord, segValid, toNat_append_eq_add]
  cases u.seg.isSome <;> cases u.errSeen <;> simp <;> omega

/-- Settles O42: a write to such a register stores nothing, and a read returns what the register reads as. -/
theorem statusAndReadOnlyRegisters : Obligations.StatusAndReadOnlyRegisters := by
  refine ⟨fun s off x rest hoff hp => ?_, fun s rest hp => step_readReg (r := .cmd) hp, fun s rest hp =>
    ⟨statusWord s.unit, step_readReg (r := .status) hp, statusWord_toNat s.unit⟩⟩
  simp only [List.mem_cons, List.not_mem_nil, or_false] at hoff
  rcases hoff with rfl | rfl | rfl | rfl
  · exact step_writeReg (r := .status) hp (by decide)
  · exact step_writeReg (r := .res0) hp (by decide)
  · exact step_writeReg (r := .res1) hp (by decide)
  · exact step_writeReg (r := .res2) hp (by decide)

/-! The state right after reset -/

/-- Every unit is in its reset state, the one being accessed and those not listed. -/
@[simp] theorem unitAt_stateReset (i : Nat) : State.reset.unitAt i = CodecUnit.reset := by
  simp only [State.unitAt, stateReset_unit, stateReset_parked, parkedUnit, assocGet_nil, Option.getD_none, ite_self]

theorem readReg_unitReset {r : HostReg} (hcmd : r ≠ .cmd) (hstatus : r ≠ .status) : readReg r CodecUnit.reset = none := by
  cases r
  case cmd => exact absurd rfl hcmd
  case status => exact absurd rfl hstatus
  all_goals rfl

@[simp] theorem arrayMemory_unitReset (a : HostArray) : arrayMemory a CodecUnit.reset = [] := by cases a <;> rfl

/-- Settles O46: every unit is in its reset state, whose registers and arrays hold no value. -/
theorem resetState : Obligations.ResetState := by
  intro i
  rw [unitAt_stateReset]
  exact ⟨rfl, rfl, fun _ hcmd hstatus => readReg_unitReset hcmd hstatus, rfl, fun a x => by simp⟩

end Sys2Proof.Machine
end

section
/-! Memory and host accesses: which accesses have a step, what a host read leaves behind, and what PARSE reads. -/

namespace Sys2Proof.Machine

variable {s t : State} {u v : CodecUnit} {w : Width} {off : Offset} {a : Access}

/-! Which accesses have a step -/

/-- The map has a register at each of words 0 to 5 and 8 to 19 of the register space (10_state.md R46). -/
theorem hostRegOffset_hostRegAt :
    ∀ k < 20, k ≤ 5 ∨ 8 ≤ k → (hostRegAt k).map hostRegOffset = some (4 * k) := by decide

/-- The registers stand at the aligned offsets of the two register ranges (10_state.md R46). -/
theorem exists_hostRegOffset_iff {n : Nat} :
    (∃ r, hostRegOffset r = n) ↔ n % 4 = 0 ∧ (n ≤ 0x14 ∨ 0x20 ≤ n ∧ n ≤ 0x4C) := by
  constructor
  · rintro ⟨r, rfl⟩
    cases r <;> decide
  · rintro ⟨hal, hrange⟩
    obtain ⟨r, -, hr⟩ := Option.map_eq_some_iff.1 (hostRegOffset_hostRegAt (n / 4) (by omega) (by omega))
    exact ⟨r, by omega⟩

/-- The statements' list of arrays holds the base and size of each array. -/
theorem mem_arrays_iff {p : Nat × Nat} : p ∈ Claims.arrays ↔ ∃ b, p = (arrayBase b, arraySize b) := by
  constructor
  · intro hp
    simp only [Claims.arrays, List.mem_cons, List.not_mem_nil, or_false] at hp
    rcases hp with rfl | rfl | rfl
    · exact ⟨.inOpt, rfl⟩
    · exact ⟨.inPay, rfl⟩
    · exact ⟨.buf, rfl⟩
  · rintro ⟨b, rfl⟩
    cases b <;> simp [Claims.arrays, arrayBase, arraySize]

/-- Every array starts aligned to every width, so an access is aligned in the window exactly when it is aligned in the array. -/
theorem arrayBase_add_mod (b : HostArray) (k : Nat) (w : Width) :
    (arrayBase b + k) % widthBytes w = k % widthBytes w := by
  have hbase : widthBytes w ∣ arrayBase b := by cases b <;> cases w <;> decide
  rw [Nat.add_mod, Nat.mod_eq_zero_of_dvd hbase, Nat.zero_add, Nat.mod_mod]

theorem offset_eq_ofNat {n : Nat} (h : off.toNat = n) : off = BitVec.ofNat 18 n := by
  rw [← h, BitVec.ofNat_toNat, BitVec.setWidth_eq]

/-- The accesses the rules permit by width and offset are those that reach a target (10_state.md R47, 20_memory.md R62). -/
theorem permitted_iff_resolve : Claims.Permitted w off.toNat ↔ ∃ g, resolve w off = .ok g := by
  constructor
  · rintro (⟨rfl, hreg⟩ | ⟨p, hp, hal, hlo, hhi⟩)
    · obtain ⟨r, hr⟩ := exists_hostRegOffset_iff.2 hreg
      rw [offset_eq_ofNat hr.symm]
      exact ⟨_, resolve_reg r⟩
    · obtain ⟨b, rfl⟩ := mem_arrays_iff.1 hp
      obtain ⟨k, hk⟩ := Nat.exists_eq_add_of_le hlo
      rw [hk, arrayBase_add_mod] at hal
      rw [offset_eq_ofNat hk]
      exact ⟨_, resolve_bytes hal (by simp only at hhi hk; omega)⟩
  · rintro ⟨g, hg⟩
    cases g with
    | reg r =>
      obtain ⟨rfl, hoff⟩ := resolve_eq_reg hg
      exact .inl ⟨rfl, exists_hostRegOffset_iff.1 ⟨r, hoff.symm⟩⟩
    | bytes b i =>
      obtain ⟨hoff, hin, hal⟩ := resolve_eq_bytes hg
      exact .inr ⟨_, mem_arrays_iff.2 ⟨b, rfl⟩, hal, by omega, by omega⟩

theorem resolve_isOk_iff : (resolve w off).isOk = true ↔ Claims.Permitted w off.toNat := by
  rw [permitted_iff_resolve]
  cases resolve w off <;> simp [Except.isOk, Except.toBool]

/-- An access the rules refuse has no step: the host is stuck (20_memory.md R62). -/
theorem runAccess_fault (h : ¬ accessPermitted a = true) (s : State) : ∃ f, runAccess a s = .fault f := by
  cases a with
  | read w off | write w off x =>
    cases hg : resolve w off with
    | error f => exact ⟨f, by simp only [runAccess, hg]⟩
    | ok g => simp [accessPermitted, hg, Except.isOk, Except.toBool] at h

theorem runAccess_fault_iff : (∃ f, runAccess a s = .fault f) ↔ ¬ accessPermitted a = true := by
  refine ⟨?_, fun h => runAccess_fault h s⟩
  rintro ⟨f, hf⟩ h
  obtain ⟨t, ht⟩ := runAccess_total h s
  simp [ht] at hf

theorem runAccess_ne_refused (a : Access) (s : State) (r : Refusal) : runAccess a s ≠ .refused r := by
  by_cases h : accessPermitted a = true
  · obtain ⟨t, ht⟩ := runAccess_total h s
    simp [ht]
  · obtain ⟨f, hf⟩ := runAccess_fault h s
    simp [hf]

theorem runEvent_ne_refused (e : Event) (s : State) (r : Refusal) : runEvent e s ≠ .refused r := by
  cases e with
  | access i a =>
    simp only [runEvent]
    split
    · nofun
    · next t _ => exact runAccess_ne_refused a t r
  | reset i =>
    simp only [runEvent]
    split <;> nofun

/-- Settles O45: an access faults exactly when it reaches no target, and every command has a meaning. -/
theorem stuckExactlyAtRefusedAccess : Obligations.StuckExactlyAtRefusedAccess := by
  refine ⟨fun s w off x rest hp => ?_, fun s r => ?_⟩
  · rw [← resolve_isOk_iff]
    rcases hp with hp | hp
    all_goals
      rw [step_access hp]
      exact runAccess_fault_iff
  · cases hp : s.pending with
    | nil => rw [step_idle hp]; nofun
    | cons e rest => rw [step_cons hp]; exact runEvent_ne_refused e _ r

/-! Host reads -/

/-- A host read that has a step changes only what the host has read (20_memory.md R66). -/
theorem runAccess_read (h : runAccess (.read w off) s = .next t) : t = { s with lastRead := t.lastRead } := by
  rcases runAccess_cases h with ⟨_, _, _, -, -, rfl⟩ | ⟨_, _, _, ha, -⟩ | ⟨_, _, _, _, ha, -⟩
  · rfl
  · cases ha
  · cases ha

/-- Settles O43: a read only records its reply, and the reply of an undefined register is ⊥. -/
theorem hostReadHasNoSideEffect : Obligations.HostReadHasNoSideEffect := by
  refine ⟨fun s t w off rest hp h => ?_, fun s r rest hp hr => ?_⟩
  · rw [step_access hp] at h
    exact runAccess_read h
  · rw [step_readReg hp, hr]
    rfl

/-! What PARSE reads -/

/-- Two arrays that agree on the bytes read give the same bytes. -/
theorem readBytes_congr {m m' : Memory} {x n : Nat} (h : ∀ i, x ≤ i → i < x + n → m.read i = m'.read i) :
    m.readBytes x n = m'.readBytes x n := by
  induction n generalizing x with
  | zero => rfl
  | succ n ih =>
    rw [Memory.readBytes, Memory.readBytes, h x (by omega) (by omega), ih fun i hlo hhi => h i (by omega) (by omega)]

/-- The declared header length is four times the data offset, the upper half of byte 12 (41_parse.md R140). -/
theorem declaredHeader_eq {m : Memory} {hdr : List Byte} {b : Byte} (hhdr : m.readBytes 0 20 = some hdr)
    (hb : m.read 12 = some b) : declaredHeader hdr = 4 * (b.toNat / 16) := by
  have h12 : hdr[12]? = some b := by rw [← hb, ← (readBytes_eq_some.1 hhdr).2 12 (by omega)]
  have hat : byteAt hdr 12 = b := by rw [byteAt, List.getD_eq_getElem?_getD, h12, Option.getD_some]
  have hlt := b.isLt
  rw [declaredHeader, hat, BitVec.extractLsb'_toNat, Nat.shiftRight_eq_div_pow]
  omega

/-- Unit v with what a successful PARSE left in unit r: the segment and RES0. -/
def withParsed (v r : CodecUnit) : CodecUnit := { v with seg := r.seg, res0 := r.res0 }

/-- PARSE raises the same code, or loads the same segment and RES0, in two units that agree on BUF_LEN, the two addresses and the
header bytes (41_parse.md R140, R142). -/
theorem parseCommand_congr {b : Byte} (hb : u.buf.read 12 = some b)
    (hbuf : ∀ x, x < max 20 (4 * (b.toNat / 16)) → u.buf.read x = v.buf.read x)
    (hlen : v.bufLen = u.bufLen) (hsa : v.inp.srcAddr = u.inp.srcAddr) (hda : v.inp.dstAddr = u.inp.dstAddr) :
    parseCommand v = (parseCommand u).map (withParsed v) := by
  have hfixed : v.buf.readBytes 0 20 = u.buf.readBytes 0 20 :=
    readBytes_congr fun x _ hx => (hbuf x (by omega)).symm
  have hopt {hdr : List Byte} (hhdr : u.buf.readBytes 0 20 = some hdr) :
      v.buf.readBytes 20 (optionsBytes (declaredHeader hdr)) = u.buf.readBytes 20 (optionsBytes (declaredHeader hdr)) := by
    have hd := declaredHeader_eq hhdr hb
    refine readBytes_congr fun x _ hx => (hbuf x ?_).symm
    unfold optionsBytes at hx
    split at hx <;> omega
  simp only [parseCommand, hlen, hsa, hda, hfixed]
  split
  · split
    · rfl
    · split
      · rfl
      · split
        · rfl
        · next hdr hhdr =>
          rw [hopt hhdr]
          split
          · rfl
          · split <;> rfl
  · rfl

theorem exec_parse (s : State) : exec .parse s = complete parseCommand s := exec_eq_complete .parse s

/-- Settles O38: the second run raises what the first raises, or loads what the first loads. -/
theorem parseReadsOnlyTheHeader : Obligations.ParseReadsOnlyTheHeader := by
  intro s s' t t' b hb hbuf hlen hsa hda h h'
  rw [exec_parse] at h h'
  have hparse := parseCommand_congr hb hbuf hlen hsa hda
  rcases complete_cases h with ⟨r, hr, rfl⟩ | ⟨e, he, rfl⟩
  · rw [hr] at hparse
    rw [complete_ok hparse] at h'
    cases h'
    exact ⟨rfl, fun _ => ⟨rfl, rfl⟩⟩
  · rw [he] at hparse
    rw [complete_error hparse] at h'
    cases h'
    exact ⟨rfl, nofun⟩

end Sys2Proof.Machine
end

section
/-! The encoding: what an accepted word is, the fields of a word as parts of its number, which words are illegal and
which are legal. -/

namespace Sys2Proof

variable {w : Word} {i : Instr} {o : BitVec 8}

/-! What an accepted word is -/

/-- The entry of the opcode map that a command is read through. -/
def opcodeEntry : Instr → OpcodeEntry
  | .setField _ => .setField
  | .getField _ => .getField
  | i => .plain i

@[simp] theorem opcodeMap_instrOpc (i : Instr) : opcodeMap (instrOpc i) = some (opcodeEntry i) := by
  cases i <;> rfl

/-- The opcode of an entry of the opcode map (30_encoding.md R82). -/
def entryOpc : OpcodeEntry → BitVec 8
  | .plain i => instrOpc i
  | .setField => 0x05
  | .getField => 0x36

theorem eq_entryOpc_of_opcodeMap {e : OpcodeEntry} (h : opcodeMap o = some e) : o = entryOpc e := by
  unfold opcodeMap at h
  split at h <;> cases h
  all_goals exact BitVec.eq_of_toNat_eq ‹_›

theorem opcodeMap_eq_setField_iff : opcodeMap o = some .setField ↔ o = 0x05 :=
  ⟨eq_entryOpc_of_opcodeMap, fun h => h ▸ rfl⟩

theorem opcodeMap_eq_getField_iff : opcodeMap o = some .getField ↔ o = 0x36 :=
  ⟨eq_entryOpc_of_opcodeMap, fun h => h ▸ rfl⟩

/-- The commands the map names outright take no selector. -/
theorem selectorless_of_opcodeMap (h : opcodeMap o = some (.plain i)) : instrFid i = 0 ∧ i.wellFormed = true := by
  unfold opcodeMap at h
  split at h <;> cases h
  all_goals exact ⟨rfl, rfl⟩

theorem opcodeMap_eq_none_iff : opcodeMap o = none ↔ o.toNat ∉ Claims.opcodes := by
  unfold opcodeMap
  split <;> simp_all [Claims.opcodes]

/-- A word decodes to a well-formed command whose selector and opcode stand in its fields, with zero in MBZ
(30_encoding.md R84). -/
theorem decode_eq_ok_iff :
    decode w = .ok i ↔
      wordMbz w = 0 ∧ wordFid w = instrFid i ∧ wordOpc w = instrOpc i ∧ i.wellFormed = true := by
  constructor
  · intro h
    unfold decode at h
    split at h
    · cases h
    · next hmbz =>
      refine ⟨not_not.1 hmbz, ?_⟩
      split at h
      · cases h
      · next hopc =>
        split at h <;> cases h
        next hf =>
          obtain ⟨hfid, hwf⟩ := selectorless_of_opcodeMap hopc
          exact ⟨(not_not.1 hf).trans hfid.symm, eq_entryOpc_of_opcodeMap hopc, hwf⟩
      · next hopc =>
        split at h <;> cases h
        next hlegal => exact ⟨(fidBits_fidOfBits _).symm, opcodeMap_eq_setField_iff.1 hopc, hlegal⟩
      · next hopc =>
        split at h <;> cases h
        next hlegal => exact ⟨(fidBits_fidOfBits _).symm, opcodeMap_eq_getField_iff.1 hopc, hlegal⟩
  · rintro ⟨hmbz, hfid, hopc, hwf⟩
    simp only [decode, hmbz, hfid, hopc, opcodeMap_instrOpc]
    cases i with
    | setField f | getField f => simpa [opcodeEntry, instrFid, Instr.wellFormed] using hwf
    | _ => rfl

/-- A command's word is the word with that command's fields. -/
theorem encode_eq_iff :
    encode i = w ↔ wordMbz w = 0 ∧ wordFid w = instrFid i ∧ wordOpc w = instrOpc i := by
  constructor
  · rintro rfl
    simp
  · rintro ⟨hmbz, hfid, hopc⟩
    rw [word_eq_fields w, hmbz, hfid, hopc, encode]

/-- Settles O1: an accepted word and a command's word have the same three fields. -/
theorem decodeIffEncode : Obligations.DecodeIffEncode := by
  intro w i
  rw [decode_eq_ok_iff, encode_eq_iff]
  tauto

/-- Settles O2: each word is the encoding of a well-formed command. -/
theorem sampleWordsDecode : Obligations.SampleWordsDecode := by
  unfold Obligations.SampleWordsDecode
  simp only [decodeIffEncode _ _]
  decide

/-! The fields as parts of the word's number -/

theorem toNat_wordOpc (w : Word) : (wordOpc w).toNat = w.toNat % 0x100 := by
  rw [wordOpc, BitVec.extractLsb'_toNat, Nat.shiftRight_zero]

theorem toNat_wordFid (w : Word) : (wordFid w).toNat = w.toNat / 0x100 % 0x10 := by
  rw [wordFid, BitVec.extractLsb'_toNat, Nat.shiftRight_eq_div_pow]

theorem wordOpc_eq_iff : wordOpc w = o ↔ w.toNat % 0x100 = o.toNat := by
  rw [← BitVec.toNat_inj, toNat_wordOpc]

theorem toNat_wordMbz (w : Word) : (wordMbz w).toNat = w.toNat / 0x1000 := by
  have hlt := w.isLt
  rw [wordMbz, BitVec.extractLsb'_toNat, Nat.shiftRight_eq_div_pow]
  omega

theorem wordFid_eq_zero_iff : wordFid w = 0 ↔ w.toNat / 0x100 % 0x10 = 0 := by
  rw [← toNat_wordFid]
  exact BitVec.toNat_inj.symm

theorem wordMbz_eq_zero_iff : wordMbz w = 0 ↔ w.toNat / 0x1000 = 0 := by
  rw [← toNat_wordMbz]
  exact BitVec.toNat_inj.symm

/-- The selectors below 14 are the legal ones (30_encoding.md R83). -/
theorem fidOfBits_legal_iff : ∀ b : BitVec 4, (fidOfBits b).legal = true ↔ b.toNat < 14 := by decide

theorem fid_legal_iff : (fidOfBits (wordFid w)).legal = true ↔ w.toNat / 0x100 % 0x10 < 14 := by
  rw [fidOfBits_legal_iff, toNat_wordFid]

/-! Which words are illegal, and which are legal -/

/-- MBZ is checked first (30_encoding.md R85). -/
theorem decode_mbzNotZero (h : w.toNat / 0x1000 ≠ 0) : decode w = .error .mbzNotZero := by
  rw [decode, if_pos (mt wordMbz_eq_zero_iff.1 h)]

/-- OPC is checked after MBZ (30_encoding.md R85). -/
theorem decode_unknownOpcode (hmbz : w.toNat / 0x1000 = 0) (h : w.toNat % 0x100 ∉ Claims.opcodes) :
    decode w = .error .unknownOpcode := by
  have hopc : opcodeMap (wordOpc w) = none := opcodeMap_eq_none_iff.2 (by rwa [toNat_wordOpc])
  simp only [decode, wordMbz_eq_zero_iff.2 hmbz, hopc, ne_eq, not_true_eq_false, if_false]

/-- For an opcode in the map, what is left to check is FID (30_encoding.md R84, R85). -/
theorem decode_error_iff_of_known (hmbz : w.toNat / 0x1000 = 0) (hopc : w.toNat % 0x100 ∈ Claims.opcodes) :
    (∃ d, decode w = .error d) ↔
      if w.toNat % 0x100 = 0x05 ∨ w.toNat % 0x100 = 0x36 then ¬ w.toNat / 0x100 % 0x10 < 14
      else w.toNat / 0x100 % 0x10 ≠ 0 := by
  have hset : opcodeMap (wordOpc w) = some .setField ↔ w.toNat % 0x100 = 0x05 :=
    opcodeMap_eq_setField_iff.trans wordOpc_eq_iff
  have hget : opcodeMap (wordOpc w) = some .getField ↔ w.toNat % 0x100 = 0x36 :=
    opcodeMap_eq_getField_iff.trans wordOpc_eq_iff
  simp only [← hset, ← hget, decode, wordMbz_eq_zero_iff.2 hmbz, fid_legal_iff, wordFid_eq_zero_iff, ne_eq,
    not_true_eq_false, if_false]
  cases he : opcodeMap (wordOpc w) with
  | none => exact absurd (toNat_wordOpc w ▸ hopc) (opcodeMap_eq_none_iff.1 he)
  | some e =>
    cases e with
    | plain i => by_cases hf : w.toNat / 0x100 % 0x10 = 0 <;> simp [hf]
    | setField | getField => by_cases hf : w.toNat / 0x100 % 0x10 < 14 <;> simp [hf]

/-- The decoder rejects a word exactly under the four conditions (30_encoding.md R84). -/
theorem decode_error_iff_illegalWord : (∃ d, decode w = .error d) ↔ Claims.IllegalWord w := by
  unfold Claims.IllegalWord
  by_cases hmbz : w.toNat / 0x1000 = 0
  · by_cases hopc : w.toNat % 0x100 ∈ Claims.opcodes
    · rw [decode_error_iff_of_known hmbz hopc]
      split <;> simp [hopc] <;> omega
    · exact iff_of_true ⟨_, decode_unknownOpcode hmbz hopc⟩ (.inl hopc)
  · exact iff_of_true ⟨_, decode_mbzNotZero hmbz⟩ (.inr (.inl hmbz))

theorem decode_ok_iff_not_illegalWord : (∃ i, decode w = .ok i) ↔ ¬ Claims.IllegalWord w := by
  rw [← decode_error_iff_illegalWord]
  cases decode w <;> simp

/-- A number is listed as a legal word: one of the opcodes without a selector, or a selector below 14 with one of the
other two. -/
theorem mem_legalWords_iff {n : Nat} : n ∈ Claims.legalWords ↔
    (n ∈ Claims.opcodes ∧ n ≠ 0x05 ∧ n ≠ 0x36) ∨ n / 0x100 < 14 ∧ (n % 0x100 = 0x05 ∨ n % 0x100 = 0x36) := by
  have hselector (o : Nat) (ho : o < 0x100) : (∃ f < 14, f * 0x100 + o = n) ↔ n / 0x100 < 14 ∧ n % 0x100 = o :=
    ⟨by rintro ⟨f, hf, rfl⟩; omega, fun ⟨hf, hn⟩ => ⟨n / 0x100, hf, by omega⟩⟩
  simp only [Claims.legalWords, List.mem_append, List.mem_filter, List.mem_map, List.mem_range, hselector, Nat.reduceLT,
    decide_eq_true_eq]
  tauto

theorem lt_of_mem_opcodes : ∀ n ∈ Claims.opcodes, n < 0x100 := by decide

/-- The words that are not illegal are the listed ones (30_encoding.md R84, R85). -/
theorem not_illegalWord_iff_mem_legalWords : ¬ Claims.IllegalWord w ↔ w.toNat ∈ Claims.legalWords := by
  rw [mem_legalWords_iff]
  unfold Claims.IllegalWord
  constructor
  · intro h
    obtain ⟨hopc, hmbz, hplain, hselector⟩ : _ ∧ _ ∧ _ ∧ _ := by simpa only [not_or, not_not] using h
    by_cases hs : w.toNat % 0x100 = 0x05 ∨ w.toNat % 0x100 = 0x36
    · exact .inr ⟨by omega, hs⟩
    · have hw : w.toNat % 0x100 = w.toNat := by omega
      rw [hw] at hopc hs
      exact .inl ⟨hopc, not_or.1 hs⟩
  · rintro (⟨hopc, hset, hget⟩ | ⟨hf, hs⟩)
    · have hlt := lt_of_mem_opcodes _ hopc
      have hw : w.toNat % 0x100 = w.toNat := by omega
      simp only [hw, hopc, not_true_eq_false, false_or]
      omega
    · have hopc : w.toNat % 0x100 ∈ Claims.opcodes := by rcases hs with hs | hs <;> rw [hs] <;> decide
      simp only [hopc, not_true_eq_false, false_or]
      omega

/-- Settles O4: the decoder's order of checks, and the words it does not reject. -/
theorem legalWordsAre49 : Obligations.LegalWordsAre49 :=
  ⟨fun _ => decode_mbzNotZero, fun _ => decode_unknownOpcode,
    fun _ => decode_ok_iff_not_illegalWord.trans not_illegalWord_iff_mem_legalWords, by decide, by decide⟩

/-! What an illegal word does -/

namespace Machine

variable {s : State} {rest : List Event}

/-- An illegal word written to CMD raises ILLEGAL_COMMAND whatever the state (60_exceptions.md R245). -/
theorem runCommandWord_illegalWord (h : Claims.IllegalWord w) (s : State) :
    runCommandWord w s = .next { s with unit := { s.unit with code := .raised .illegalCommand, errSeen := true } } := by
  obtain ⟨d, hd⟩ := decode_error_iff_illegalWord.2 h
  exact runCommandWord_error hd

/-- The host writes a word to CMD. -/
theorem step_commandWrite
    (hp : s.pending = .access s.sel (.write .w32 (BitVec.ofNat 18 (hostRegOffset .cmd)) w) :: rest) :
    step s = runCommandWord w { s with pending := rest } := by
  rw [step_access hp]
  simp only [runAccess, resolve_reg]

theorem exec_raises {i : Instr} {e : Cause} (h : commandOf i s.unit = .error e) : Claims.Raises i s e :=
  (exec_eq_complete i s).trans (complete_error h)

/-- SET_FIELD with a reserved selector, run as a term (40_construction.md R126). -/
theorem setFieldCommand_reserved {f : Fid} (h : f.legal = false) (u : CodecUnit) :
    setFieldCommand f u = .error .illegalCommand := by
  simp only [setFieldCommand, h, Bool.false_eq_true, if_false]

/-- GET_FIELD with a reserved selector, run as a term (43_accessors.md R206). -/
theorem getFieldCommand_reserved {f : Fid} (h : f.legal = false) (u : CodecUnit) :
    getFieldCommand f u = .error .illegalCommand := by
  simp only [getFieldCommand, h, Bool.false_eq_true, if_false]

/-- Settles O3: the decoder rejects exactly the illegal words, and a rejected word raises the code. -/
theorem illegalWordsRaise : Obligations.IllegalWordsRaise := by
  refine ⟨fun _ => decode_error_iff_illegalWord, .inl (by decide), fun w s h => runCommandWord_illegalWord h s,
    fun w s rest h hp => ?_, fun f s h =>
    ⟨exec_raises (setFieldCommand_reserved h _), exec_raises (getFieldCommand_reserved h _)⟩⟩
  rw [step_commandWrite hp, runCommandWord_illegalWord h]

end Machine

end Sys2Proof
end

section
/-! Host programs: the lines of an assembled program run one after another, and the pseudo-instructions of 30_encoding.md
R88. -/

namespace Sys2Proof.Machine

variable {s t : State} {u v : CodecUnit} {g h : Segment} {r : HostReg} {i : Instr} {a : HostArray} {f : Fid}
  {o : ControlOperands} {bs : List Byte} {p : List AsmLine} {n : Nat}

/-! Running the lines of a program -/

theorem run_succ (h : step s = .next t) : Host.Core.run core (n + 1) s = Host.Core.run core n t := by
  have hstep : core.step s = .next t := h
  simp only [Host.Core.run, hstep]

/-- The system of s when the accessed unit has reached u and the given events are still to happen. -/
def State.awaiting (s : State) (es : List Event) (u : CodecUnit) : State := { s with pending := es, unit := u }

theorem awaiting_self {es : List Event} (h : s.pending = es) : s.awaiting es s.unit = s := h ▸ rfl

/-- A `WR` line takes one step and writes its register. -/
theorem run_wr (r : HostReg) (hr : r ≠ .cmd) {x : Word} :
    Host.Core.run core (n + 1) (s.awaiting (assemble s.sel (.wr r x :: p)) u) =
      Host.Core.run core n (s.awaiting (assemble s.sel p) (writeReg r x u)) :=
  run_succ (step_writeReg (s := s.awaiting _ u) rfl hr)

/-- A command line takes one step and runs the command. -/
theorem run_command (hi : i.wellFormed = true) (hc : commandOf i u = .ok v) :
    Host.Core.run core (n + 1) (s.awaiting (assemble s.sel (.command i :: p)) u) =
      Host.Core.run core n (s.awaiting (assemble s.sel p) (markOk v)) := by
  refine run_succ ?_
  rw [step_commandWrite (s := s.awaiting _ u) (w := encode i) (rest := assemble s.sel p) rfl,
    runCommandWord_ok ((decodeIffEncode _ i).2 ⟨hi, rfl⟩), exec_eq_complete]
  exact complete_ok hc

/-- An 8-bit host write stores its byte. -/
theorem step_byteWrite {k : Nat} {b : Byte} {rest : List Event}
    (hp : s.pending = .access s.sel (.write .w8 (arrayOffset a k) (b.setWidth 32)) :: rest) (hk : k < arraySize a) :
    step s = .next { s with pending := rest, unit := storeBytes a k [b] s.unit } := by
  have hbyte : busBytes .w8 (b.setWidth 32) = [b] := by simp [busBytes]
  rw [step_access hp, arrayOffset, runAccess_store _ _ (resolve_bytes (Nat.mod_one k) hk) nofun, hostWrite, hbyte]
  rfl

theorem run_byteWrite {k : Nat} {b : Byte} {es : List Event} (hk : k < arraySize a) :
    Host.Core.run core (n + 1) (s.awaiting (.access s.sel (.write .w8 (arrayOffset a k) (b.setWidth 32)) :: es) u) =
      Host.Core.run core n (s.awaiting es (storeBytes a k [b] u)) :=
  run_succ (step_byteWrite (s := s.awaiting _ u) rfl hk)

theorem storeBytes_nil (a : HostArray) (k : Nat) (u : CodecUnit) : storeBytes a k [] u = u := by
  cases a <;> rfl

theorem storeBytes_cons (a : HostArray) (k : Nat) (b : Byte) (bs : List Byte) (u : CodecUnit) :
    storeBytes a (k + 1) bs (storeBytes a k [b] u) = storeBytes a k (b :: bs) u := by
  cases a <;> rfl

/-- The accesses of a `WRB` line inside its array take a step each and store the bytes. -/
theorem run_byteWrites {k : Nat} {es : List Event} (hk : k + bs.length ≤ arraySize a) :
    Host.Core.run core (bs.length + n) (s.awaiting (byteWrites s.sel a k bs ++ es) u) =
      Host.Core.run core n (s.awaiting es (storeBytes a k bs u)) := by
  induction bs generalizing k u with
  | nil => rw [List.length_nil, Nat.zero_add, storeBytes_nil, byteWrites, List.nil_append]
  | cons b bs ih =>
    rw [List.length_cons] at hk ⊢
    rw [Nat.add_right_comm, byteWrites, List.cons_append, run_byteWrite (by omega), ih (by omega), storeBytes_cons]

/-- A `WRB` line inside its array takes a step a byte and stores the bytes. -/
theorem run_wrb (hk : bs.length ≤ arraySize a) :
    Host.Core.run core (bs.length + n) (s.awaiting (assemble s.sel (.wrb a 0 bs :: p)) u) =
      Host.Core.run core n (s.awaiting (assemble s.sel p) (storeBytes a 0 bs u)) :=
  run_byteWrites (by omega)

/-! The commands of the pseudo-instructions -/

/-- A control constructor with its six operands loads its segment (40_construction.md R120). -/
theorem newControl_eq_ok (flags : Byte) (ho : controlOperands u.inp = some o) :
    newControl flags u = .ok (loadSegment (controlSegment flags o) u) := by
  simp only [newControl, ho]

/-- SET_FIELD with a legal selector, a segment and its operand replaces the field (40_construction.md R126). -/
theorem setFieldCommand_eq_ok (hf : f.legal = true) (hg : u.seg = some g) (hr : replaceField f u.inp g = .ok h) :
    setFieldCommand f u = .ok (loadSegment h u) := by
  simp only [setFieldCommand, hf, if_true, needSegment_some hg, hr]
  rfl

/-- SET_FIELD FLAGS takes the flags of IN.ctl into the offset/reserved/flags word (40_construction.md R128). -/
theorem replaceField_flags {b : OperandBank} {c : Half} (hc : b.ctl = some c) :
    replaceField .flags b g = .ok { g with ctl := packCtl (dataOffset g.ctl) (reservedBits g.ctl) (flagBits c) } := by
  rw [replaceField, hc]
  rfl

/-- SET_FIELD OPTIONS takes the options operand (40_construction.md R129). -/
theorem replaceField_options {b : OperandBank} (hb : optionsOperand b = .ok bs) :
    replaceField .options b g = .ok { g with opt := bs } := by
  rw [replaceField, hb]
  rfl

/-- The options operand is the bytes last stored, once IN.opt_len is their number (40_construction.md R129). -/
theorem optionsOperand_stored (u : CodecUnit) (hbs : bs.length ≤ Config.optMax) :
    optionsOperand (writeReg .inOptLen (BitVec.ofNat 32 bs.length) (storeBytes .inOpt 0 bs u)).inp = .ok bs := by
  have hlen : ((BitVec.ofNat 32 bs.length).setWidth 8).toNat = bs.length := by
    simp only [Config.optMax] at hbs
    simp only [BitVec.toNat_setWidth, BitVec.toNat_ofNat]
    omega
  simp only [optionsOperand, writeReg, storeBytes, setArrayMemory, arrayMemory, hlen, readBytes_writeBytes_same,
    scalarOperand, if_neg (Nat.not_lt.2 hbs)]

/-- Settles O60: the bytes are stored, their number is written, and SET_FIELD OPTIONS loads them. -/
theorem setOptionsProgram : Obligations.SetOptionsProgram := by
  intro s g bs hg hbs hp
  have hreplace := replaceField_options (g := g) (optionsOperand_stored s.unit hbs)
  have hset : commandOf (.setField .options) _ = _ :=
    setFieldCommand_eq_ok rfl (by rw [writeReg_seg]; exact hg) hreplace
  rw [← awaiting_self hp, asmSetOptions, run_wrb hbs, run_wr .inOptLen nofun, run_command rfl hset]
  exact ⟨_, rfl, rfl, rfl, rfl⟩

/-- The unit after the six operand writes of a constructor pseudo-instruction (30_encoding.md R88). -/
def writeControlOperands (o : ControlOperands) (u : CodecUnit) : CodecUnit :=
  writeReg .inAck o.ack <| writeReg .inSeq o.seq <| writeReg .inDstPort (o.dstPort.setWidth 32) <|
    writeReg .inSrcPort (o.srcPort.setWidth 32) <| writeReg .inDstAddr o.dstAddr <| writeReg .inSrcAddr o.srcAddr u

/-- The six operand lines take a step each. -/
theorem run_asmControlOperands (o : ControlOperands) :
    Host.Core.run core (n + 6)
        (s.awaiting (assemble s.sel (asmControlOperands o.srcAddr o.dstAddr o.srcPort o.dstPort o.seq o.ack ++ p)) u) =
      Host.Core.run core n (s.awaiting (assemble s.sel p) (writeControlOperands o u)) := by
  simp only [asmControlOperands, List.cons_append, List.nil_append]
  rw [run_wr .inSrcAddr nofun, run_wr .inDstAddr nofun, run_wr .inSrcPort nofun, run_wr .inDstPort nofun,
    run_wr .inSeq nofun, run_wr .inAck nofun]
  rfl

theorem controlOperands_writeControlOperands (o : ControlOperands) (u : CodecUnit) :
    controlOperands (writeControlOperands o u).inp = some o := by
  simp [controlOperands, writeControlOperands, writeReg]

/-- The flags of 0x0014 make NEW_RST's segment an RST+ACK segment (40_construction.md R122). -/
theorem setFlags_newRst (o : ControlOperands) (hg : u.seg = some (controlSegment (flagsOf [.rst]) o))
    (hc : u.inp.ctl = some 0x0014) :
    setFieldCommand .flags u = .ok (loadSegment { controlSegment (flagsOf [.rst]) o with ctl := 0x5014 } u) := by
  have hctl : packCtl 5 0 (flagBits 0x0014) = 0x5014 := by decide
  refine setFieldCommand_eq_ok rfl hg ((replaceField_flags hc).trans ?_)
  rw [show (controlSegment (flagsOf [.rst]) o).ctl = packCtl 5 0 (flagsOf [.rst]) from rfl, dataOffset_packCtl,
    reservedBits_packCtl, hctl]

/-- Settles O59: the operands are written, NEW_RST loads its segment, and SET_FIELD FLAGS adds ACK. -/
theorem newRstAckProgram : Obligations.NewRstAckProgram := by
  intro s a b sq ak p q hp
  let o : ControlOperands := ⟨a, b, p, q, sq, ak⟩
  have hnew : commandOf .newRst (writeControlOperands o s.unit) = _ :=
    newControl_eq_ok _ (controlOperands_writeControlOperands o s.unit)
  rw [← awaiting_self hp, asmNewRstAck, asmNewRst, List.append_assoc, run_asmControlOperands (n := 3) o]
  simp only [List.cons_append, List.nil_append]
  rw [run_command rfl hnew, run_wr .inCtl nofun, run_command (i := .setField .flags) rfl (setFlags_newRst o rfl rfl)]
  exact ⟨_, rfl, rfl, rfl, rfl⟩

end Sys2Proof.Machine
end

section
/-! Construction and field edits: the control constructors, SET_FIELD by the kind of its field, FROM_HEADER, and what they all
leave unchanged. -/

namespace Sys2Proof.Machine

variable {s t : State} {u v : CodecUnit} {b : OperandBank} {g h : Segment} {o : ControlOperands} {i : Instr} {f : Fid}
  {m : Memory} {bs : List Byte} {n : Nat}

/-- A command whose only write is the segment: the segment is loaded, STATUS.CODE is OK, nothing else changes. -/
theorem exec_loads (hc : commandOf i s.unit = .ok (loadSegment g s.unit)) :
    exec i s = .next { s with unit := { s.unit with seg := some g, code := .ok } } :=
  (exec_eq_complete i s).trans (complete_ok hc)

theorem except_map_ok {α β : Type} {x : Except Cause α} {k : α → β} {y : β} (hx : x.map k = .ok y) :
    ∃ a, x = .ok a ∧ k a = y := by
  cases x with
  | error e => cases hx
  | ok a => exact ⟨a, rfl, Except.ok.inj hx⟩

/-! Array bytes below a length -/

theorem readBytes_of_holds (hlen : bs.length = n) (hbs : Claims.Holds m 0 bs) : m.readBytes 0 n = some bs :=
  readBytes_eq_some.2 ⟨hlen, hlen ▸ hbs⟩

theorem readBytes_of_undefined (hk : ∃ k, k < n ∧ m.read k = none) : m.readBytes 0 n = none :=
  readBytes_eq_none.2 (by simpa only [Nat.zero_add] using hk)

/-! SET_FIELD -/

theorem setFieldCommand_eq_error {e : Cause} (hf : f.legal = true) (hg : u.seg = some g)
    (hr : replaceField f u.inp g = .error e) : setFieldCommand f u = .error e := by
  simp only [setFieldCommand, hf, if_true, needSegment_some hg, hr]
  rfl

theorem exec_setField_ok (hf : f.legal = true) (hg : s.unit.seg = some g) (hr : replaceField f s.unit.inp g = .ok h) :
    exec (.setField f) s = .next { s with unit := { s.unit with seg := some h, code := .ok } } :=
  exec_loads (setFieldCommand_eq_ok hf hg hr)

theorem setField_raises {e : Cause} (hf : f.legal = true) (hg : s.unit.seg = some g)
    (hr : replaceField f s.unit.inp g = .error e) : Claims.Raises (.setField f) s e :=
  exec_raises (setFieldCommand_eq_error hf hg hr)

/-- A selector whose operand is one register: the register's value, or OPERAND_UNSET (40_construction.md R127, R128). -/
theorem setsField_of_scalarOperand {α : Type} {r : OperandBank → Option α} {upd : α → Segment → Segment}
    (hf : f.legal = true) (hr : ∀ b g, replaceField f b g = (scalarOperand (r b)).map (upd · g)) :
    Claims.SetsField f r upd := by
  refine fun s g hg => ⟨fun v hv => exec_setField_ok hf hg ?_, fun hv => setField_raises hf hg ?_⟩
  all_goals
    rw [hr, hv]
    rfl

/-- Settles O11: each of the nine selectors has a scalar operand. -/
theorem setFieldScalarCopiesOperand : Obligations.SetFieldScalarCopiesOperand := by
  refine ⟨?_, ?_, ?_, ?_, ?_, ?_, ?_, ?_, ?_⟩
  all_goals exact setsField_of_scalarOperand rfl fun _ _ => rfl

/-- The data offset of c above the lower twelve bits of d. -/
theorem packCtl_dataOffset_of (c d : Half) :
    packCtl (dataOffset c) (reservedBits d) (flagBits d) = (c.extractLsb' 12 4 ++ d.extractLsb' 0 12 : Half) := by
  have hlow : reservedBits d ++ flagBits d = d.extractLsb' 0 12 := BitVec.extractLsb'_append_extractLsb'_eq_extractLsb' rfl
  rw [packCtl, BitVec.append_assoc, hlow]
  rfl

/-- The flags of c below the upper eight bits of d. -/
theorem packCtl_flagBits_of (c d : Half) :
    packCtl (dataOffset d) (reservedBits d) (flagBits c) = (d.extractLsb' 8 8 ++ c.extractLsb' 0 8 : Half) := by
  have hhigh : dataOffset d ++ reservedBits d = d.extractLsb' 8 8 := BitVec.extractLsb'_append_extractLsb'_eq_extractLsb' rfl
  rw [packCtl, hhigh, flagBits]

theorem setsField_flags :
    Claims.SetsField .flags (·.ctl) fun c g => { g with ctl := (g.ctl.extractLsb' 8 8 ++ c.extractLsb' 0 8 : Half) } :=
  setsField_of_scalarOperand rfl fun b g => by simp only [replaceField, packCtl_flagBits_of]

/-- Settles O12: packing one sub-field of IN.ctl with the other two of SEG.ctl replaces the bits of that sub-field. -/
theorem setFieldPackedInsertsSubfield : Obligations.SetFieldPackedInsertsSubfield :=
  ⟨setsField_of_scalarOperand rfl fun b g => by simp only [replaceField, packCtl_dataOffset_of],
    setsField_of_scalarOperand rfl fun _ _ => rfl, setsField_flags⟩

/-- The operand that options and payload share: a length register that is set and in range, and every array byte below it set, in
that order (40_construction.md R129, R130). -/
def sequenceOperand {w : Nat} (len : Option (BitVec w)) (cap : Nat) (m : Memory) : Except Cause (List Byte) :=
  match len with
  | none => .error .operandUnset
  | some n => if cap < n.toNat then .error .illegalOperand else scalarOperand (m.readBytes 0 n.toNat)

theorem optionsOperand_eq (b : OperandBank) : optionsOperand b = sequenceOperand b.optLen Config.optMax b.opt := by
  unfold optionsOperand
  cases b.optLen <;> rfl

theorem payloadOperand_eq (b : OperandBank) : payloadOperand b = sequenceOperand b.payLen Config.payloadMax b.pay := by
  unfold payloadOperand
  cases b.payLen <;> rfl

section SequenceOperand
variable {w cap : Nat} {n : BitVec w}

theorem sequenceOperand_tooLong (hn : cap < n.toNat) : sequenceOperand (some n) cap m = .error .illegalOperand :=
  if_pos hn

theorem sequenceOperand_inRange (hn : n.toNat ≤ cap) :
    sequenceOperand (some n) cap m = scalarOperand (m.readBytes 0 n.toNat) :=
  if_neg (Nat.not_lt.2 hn)

/-- A selector whose operand is a length and array bytes: the codes it raises in order, and what it loads. -/
theorem setField_sequence {len : Option (BitVec w)} {put : List Byte → Segment} (hf : f.legal = true)
    (hg : s.unit.seg = some g) (hr : replaceField f s.unit.inp g = (sequenceOperand len cap m).map put) :
    (len = none → Claims.Raises (.setField f) s .operandUnset) ∧
      ∀ n, len = some n →
        (cap < n.toNat → Claims.Raises (.setField f) s .illegalOperand) ∧
        (n.toNat ≤ cap → (∃ k, k < n.toNat ∧ m.read k = none) → Claims.Raises (.setField f) s .operandUnset) ∧
        ∀ bs, n.toNat ≤ cap → bs.length = n.toNat → Claims.Holds m 0 bs →
          exec (.setField f) s = .next { s with unit := { s.unit with seg := some (put bs), code := .ok } } := by
  refine ⟨?_, ?_⟩
  · rintro rfl
    exact setField_raises hf hg hr
  · rintro n rfl
    refine ⟨fun hn => ?_, fun hn hk => ?_, fun bs hn hlen hbs => ?_⟩
    · rw [sequenceOperand_tooLong hn] at hr
      exact setField_raises hf hg hr
    · rw [sequenceOperand_inRange hn, readBytes_of_undefined hk] at hr
      exact setField_raises hf hg hr
    · rw [sequenceOperand_inRange hn, readBytes_of_holds hlen hbs] at hr
      exact exec_setField_ok hf hg hr

end SequenceOperand

/-- Settles O13: options and payload have the same kind of operand. -/
theorem setFieldSequencesCopyBytes : Obligations.SetFieldSequencesCopyBytes :=
  ⟨fun _ _ hg => setField_sequence rfl hg (by rw [replaceField, optionsOperand_eq]),
    fun _ _ hg => setField_sequence rfl hg (by rw [replaceField, payloadOperand_eq])⟩

/-! The control constructors -/

theorem controlOperands_eq_some_iff : controlOperands b = some o ↔
    b.srcAddr = some o.srcAddr ∧ b.dstAddr = some o.dstAddr ∧ b.srcPort = some o.srcPort ∧ b.dstPort = some o.dstPort ∧
      b.seq = some o.seq ∧ b.ack = some o.ack := by
  cases o
  simp [controlOperands, Option.bind_eq_some_iff]

theorem controlOperands_eq_none (hnone : b.srcAddr = none ∨ b.dstAddr = none ∨ b.srcPort = none ∨ b.dstPort = none ∨
    b.seq = none ∨ b.ack = none) : controlOperands b = none := by
  rcases hnone with h | h | h | h | h | h
  all_goals simp [controlOperands, h]

theorem newControl_eq_error (flags : Byte) (ho : controlOperands u.inp = none) :
    newControl flags u = .error .operandUnset := by
  simp only [newControl, ho]

/-- A command that runs `newControl` loads the segment with those flags, the data offset 5 and the reserved bits 0
(40_construction.md R120, R123). -/
theorem controlConstructor_of_newControl {flags : Byte} {w : Word} {ctl : Half} (hd : decode w = .ok i)
    (hc : commandOf i = newControl flags) (hctl : packCtl 5 0 flags = ctl) : Claims.ControlConstructor i w ctl := by
  refine ⟨hd, fun s sa da sq ak sp dp hsa hda hsp hdp hsq hak => ?_, fun s hnone => exec_raises ?_⟩
  · have ho : controlOperands s.unit.inp = some ⟨sa, da, sp, dp, sq, ak⟩ :=
      controlOperands_eq_some_iff.2 ⟨hsa, hda, hsp, hdp, hsq, hak⟩
    subst hctl
    exact exec_loads (hc ▸ newControl_eq_ok flags ho)
  · rw [hc]
    exact newControl_eq_error flags (controlOperands_eq_none hnone)

/-- After a control constructor that ends with OK, its segment is held. -/
theorem newControl_seg {flags : Byte} (hc : commandOf i = newControl flags) (ht : exec i s = .next t)
    (hok : t.unit.code = .ok) : ∃ o, t.unit.seg = some (controlSegment flags o) := by
  rw [exec_eq_complete, hc] at ht
  rcases complete_cases ht with ⟨v, hv, rfl⟩ | ⟨e, -, rfl⟩
  · obtain ⟨o, -, rfl⟩ := newControl_ok hv
    exact ⟨o, rfl⟩
  · cases hok

/-- A flag predicate of a control segment returns the flag's bit of the constructor's flags. -/
theorem exec_flagQuery_controlSegment {flags : Byte} {flag : TcpFlag}
    (hq : commandOf i = query fun g => boolWord (flagSet flag g.ctl)) (hg : t.unit.seg = some (controlSegment flags o)) :
    exec i t = .next { t with unit :=
      { t.unit with res0 := some (boolWord (flags.getLsbD (flagPos flag))), code := .ok } } := by
  have hbit : flagSet flag (controlSegment flags o).ctl = flags.getLsbD (flagPos flag) := flagSet_packCtl flag 5 0 flags
  rw [exec_eq_complete, hq, complete_query_some hg, hbit]
  rfl

/-- Settles O6: NEW_ACK is the control constructor with flags ACK. -/
theorem newAckBuildsAckSegment : Obligations.NewAckBuildsAckSegment :=
  controlConstructor_of_newControl (by decide) rfl (by decide)

/-- Settles O7: NEW_ACK_SYN is the control constructor with flags ACK and SYN, and the predicates read those flags. -/
theorem newAckSynBuildsSynAckSegment : Obligations.NewAckSynBuildsSynAckSegment := by
  refine ⟨controlConstructor_of_newControl (by decide) rfl (by decide), fun s t ht hok => ?_⟩
  obtain ⟨o, hg⟩ := newControl_seg rfl ht hok
  exact ⟨exec_flagQuery_controlSegment (flag := .ack) rfl hg, exec_flagQuery_controlSegment (flag := .syn) rfl hg⟩

/-- Settles O8: NEW_RST is the control constructor with flags RST, and SET_FIELD FLAGS replaces the low byte of 0x5004. -/
theorem newRstBuildsRstSegment : Obligations.NewRstBuildsRstSegment := by
  refine ⟨controlConstructor_of_newControl (by decide) rfl (by decide), fun s t ht hok => ?_⟩
  obtain ⟨o, hg⟩ := newControl_seg rfl ht hok
  refine ⟨exec_flagQuery_controlSegment (flag := .rst) rfl hg, exec_flagQuery_controlSegment (flag := .ack) rfl hg,
    fun g c hg' hctl hc => ?_⟩
  obtain rfl : controlSegment (flagsOf [.rst]) o = g := Option.some.inj (hg.symm.trans hg')
  have hword : ((packCtl 5 0 (flagsOf [.rst])).extractLsb' 8 8 ++ c.extractLsb' 0 8 : Half) = 0x5014 := by
    rw [hc]
    decide
  rw [← hword]
  exact (setsField_flags t _ hg').1 c hctl

/-! FROM_HEADER -/

theorem headerOperands_eq_some_iff {r : HeaderOperands} : headerOperands b = some r ↔
    controlOperands b = some r.control ∧ b.ctl = some r.ctl ∧ b.window = some r.window ∧ b.checksum = some r.checksum ∧
      b.urgent = some r.urgent ∧ b.optLen = some r.optLen ∧ b.payLen = some r.payLen := by
  cases r
  simp [headerOperands, Option.bind_eq_some_iff]

theorem option_any_const {α : Type} (x : Option α) (p : Bool) : x.any (fun _ => p) = (x.isSome && p) := by
  cases x <;> rfl

theorem headerOperands_isSome_iff : (headerOperands b).isSome ↔ Claims.HeaderScalars b := by
  unfold Claims.HeaderScalars
  simp [headerOperands, controlOperands, Option.isSome_bind, option_any_const, and_assoc]

section FromHeader
variable {r : HeaderOperands}

theorem fromHeaderCommand_unset (hr : headerOperands u.inp = none) : fromHeaderCommand u = .error .operandUnset := by
  simp only [fromHeaderCommand, hr]

theorem fromHeaderCommand_tooLong (hr : headerOperands u.inp = some r)
    (hlen : Config.optMax < r.optLen.toNat ∨ Config.payloadMax < r.payLen.toNat) :
    fromHeaderCommand u = .error .illegalOperand := by
  simp only [fromHeaderCommand, hr, if_pos hlen]

section InRange
variable (hr : headerOperands u.inp = some r) (hol : r.optLen.toNat ≤ Config.optMax)
  (hpl : r.payLen.toNat ≤ Config.payloadMax)
include hr hol hpl

theorem fromHeaderCommand_byteUnset
    (hbyte : u.inp.opt.readBytes 0 r.optLen.toNat = none ∨ u.inp.pay.readBytes 0 r.payLen.toNat = none) :
    fromHeaderCommand u = .error .operandUnset := by
  simp only [fromHeaderCommand, hr, if_neg (not_or.2 ⟨Nat.not_lt.2 hol, Nat.not_lt.2 hpl⟩)]
  split
  · next hopt hpay => simp [hopt, hpay] at hbyte
  · rfl

theorem fromHeaderCommand_eq_ok {opt pay : List Byte} (hopt : u.inp.opt.readBytes 0 r.optLen.toNat = some opt)
    (hpay : u.inp.pay.readBytes 0 r.payLen.toNat = some pay) :
    fromHeaderCommand u = .ok (loadSegment (headerSegment r opt pay) u) := by
  simp only [fromHeaderCommand, hr, if_neg (not_or.2 ⟨Nat.not_lt.2 hol, Nat.not_lt.2 hpl⟩), hopt, hpay]

end InRange

end FromHeader

/-- Settles O9: the scalars are in range and both sequences can be read. -/
theorem fromHeaderLoadsVerbatim : Obligations.FromHeaderLoadsVerbatim := by
  refine ⟨by decide, ?_⟩
  intro s sa da sq ak sp dp ct wi ck ur pl ol opt pay hsa hda hsp hdp hsq hak hct hwi hck hur hol hpl holMax hplMax
    hoptLen hopt hpayLen hpay
  have ho : controlOperands s.unit.inp = some ⟨sa, da, sp, dp, sq, ak⟩ :=
    controlOperands_eq_some_iff.2 ⟨hsa, hda, hsp, hdp, hsq, hak⟩
  have hr : headerOperands s.unit.inp = some ⟨⟨sa, da, sp, dp, sq, ak⟩, ct, wi, ck, ur, ol, pl⟩ :=
    headerOperands_eq_some_iff.2 ⟨ho, hct, hwi, hck, hur, hol, hpl⟩
  exact exec_loads (fromHeaderCommand_eq_ok hr holMax hplMax (readBytes_of_holds hoptLen hopt)
    (readBytes_of_holds hpayLen hpay))

/-- Settles O10: the three checks of FROM_HEADER's pseudocode, in order. -/
theorem fromHeaderRaisesInOrder : Obligations.FromHeaderRaisesInOrder := by
  refine fun s => ⟨fun hunset => exec_raises (fromHeaderCommand_unset ?_), fun ol pl hset hol hpl => ?_⟩
  · exact Option.not_isSome_iff_eq_none.1 (mt headerOperands_isSome_iff.1 hunset)
  · obtain ⟨r, hr⟩ := Option.isSome_iff_exists.1 (headerOperands_isSome_iff.2 hset)
    obtain ⟨-, -, -, -, -, hrol, hrpl⟩ := headerOperands_eq_some_iff.1 hr
    obtain rfl : ol = r.optLen := Option.some.inj (hol.symm.trans hrol)
    obtain rfl : pl = r.payLen := Option.some.inj (hpl.symm.trans hrpl)
    exact ⟨fun hlen => exec_raises (fromHeaderCommand_tooLong hr hlen), fun holMax hplMax hbyte =>
      exec_raises (fromHeaderCommand_byteUnset hr holMax hplMax
        (hbyte.imp readBytes_of_undefined readBytes_of_undefined))⟩

/-! Frames -/

/-- The construction commands write only the segment (40_construction.md R120, R124, R126). -/
theorem construction_loadsSegment
    (hi : i = .newAck ∨ i = .newAckSyn ∨ i = .newRst ∨ i = .fromHeader ∨ ∃ f, i = .setField f)
    (hv : commandOf i u = .ok v) : ∃ g, v = loadSegment g u := by
  rcases hi with rfl | rfl | rfl | rfl | ⟨f, rfl⟩
  case inr.inr.inr.inl =>
    obtain ⟨r, opt, pay, -, -, -, -, -, rfl⟩ := fromHeaderCommand_ok hv
    exact ⟨_, rfl⟩
  case inr.inr.inr.inr =>
    obtain ⟨g, h, -, -, rfl⟩ := setFieldCommand_ok hv
    exact ⟨_, rfl⟩
  all_goals
    obtain ⟨o, -, rfl⟩ := newControl_ok hv
    exact ⟨_, rfl⟩

/-- Settles O35: a segment is loaded and STATUS.CODE becomes OK, or a code is raised. -/
theorem constructionFrame : Obligations.ConstructionFrame := by
  intro i s t hi ht
  rw [exec_eq_complete] at ht
  rcases complete_cases ht with ⟨v, hv, rfl⟩ | ⟨e, -, rfl⟩
  · obtain ⟨g, rfl⟩ := construction_loadsSegment hi hv
    exact ⟨⟨rfl, rfl, rfl, rfl, rfl⟩, fun _ => ⟨rfl, rfl, rfl⟩, rfl, rfl, rfl, rfl⟩
  · exact ⟨⟨rfl, rfl, rfl, rfl, rfl⟩, fun _ => ⟨rfl, rfl, rfl⟩, rfl, rfl, rfl, rfl⟩

section ReplaceField
variable (hr : replaceField f b g = .ok h)
include hr

/-- Replacing a field leaves the others; of the packed word it packs the other two sub-fields again (40_construction.md R128). -/
theorem fieldWord_replaceField_other {k : Fid} (hk : k ≠ f) : fieldWord k h = fieldWord k g := by
  cases f
  case illegal14 | illegal15 => cases hr
  all_goals
    obtain ⟨x, -, rfl⟩ := except_map_ok hr
    cases k <;> simp_all [fieldWord]

theorem opt_replaceField_other (hf : f ≠ .options) : h.opt = g.opt := by
  cases f
  case options => exact absurd rfl hf
  case illegal14 | illegal15 => cases hr
  all_goals
    obtain ⟨x, -, rfl⟩ := except_map_ok hr
    rfl

theorem pay_replaceField_other (hf : f ≠ .payload) : h.pay = g.pay := by
  cases f
  case payload => exact absurd rfl hf
  case illegal14 | illegal15 => cases hr
  all_goals
    obtain ⟨x, -, rfl⟩ := except_map_ok hr
    rfl

end ReplaceField

/-- Settles O36: SET_FIELD replaces the one field, or raises a code and keeps the segment. -/
theorem setFieldLeavesOtherFields : Obligations.SetFieldLeavesOtherFields := by
  intro f s t g h hg ht hh
  rw [exec_eq_complete] at ht
  rcases complete_cases ht with ⟨v, hv, rfl⟩ | ⟨e, -, rfl⟩
  · obtain ⟨g', h', hg', hr, rfl⟩ := setFieldCommand_ok hv
    obtain rfl : g' = g := Option.some.inj (hg'.symm.trans hg)
    obtain rfl : h' = h := Option.some.inj hh
    exact ⟨fun _ => fieldWord_replaceField_other hr, opt_replaceField_other hr, pay_replaceField_other hr⟩
  · obtain rfl : g = h := Option.some.inj (hg.symm.trans hh)
    exact ⟨fun _ _ => rfl, fun _ => rfl, fun _ => rfl⟩

end Sys2Proof.Machine
end

section
/-! Parsing: what PARSE loads, what it raises and in which order, what it leaves unchanged, and what it reads back from a
serialized segment. -/

namespace Sys2Proof.Machine

variable {s t : State} {u v : CodecUnit} {m : Memory} {g : Segment} {dw : BitVec 4} {ck : Half} {a n : Nat}

/-! The branches of PARSE's pseudocode -/

/-- The option bytes are those the declared header has beyond the fixed 20 (41_parse.md R143). -/
theorem optionsBytes_eq (n : Nat) : optionsBytes n = n - 20 := by
  unfold optionsBytes
  split <;> omega

theorem parseCommand_unset (h : u.bufLen = none ∨ u.inp.srcAddr = none ∨ u.inp.dstAddr = none) :
    parseCommand u = .error .operandUnset := by
  simp only [parseCommand]
  split
  · next hlen hsa hda => simp [hlen, hsa, hda] at h
  · rfl

section Operands
variable {len : Half} {sa da : Word} (hlen : u.bufLen = some len) (hsa : u.inp.srcAddr = some sa)
  (hda : u.inp.dstAddr = some da)
include hlen hsa hda

theorem parseCommand_aboveCap (h : Config.bufCap < len.toNat) : parseCommand u = .error .illegalOperand := by
  simp only [parseCommand, hlen, hsa, hda, if_pos h]

section InCap
variable (hcap : len.toNat ≤ Config.bufCap)
include hcap

theorem parseCommand_belowFixed (h : len.toNat < 20) : parseCommand u = .error .parseTooShort := by
  simp only [parseCommand, hlen, hsa, hda, if_neg (Nat.not_lt.2 hcap), if_pos h]

section Fixed
variable (hfixed : 20 ≤ len.toNat)
include hfixed

theorem parseCommand_fixedUnset (h : u.buf.readBytes 0 20 = none) : parseCommand u = .error .operandUnset := by
  simp only [parseCommand, hlen, hsa, hda, if_neg (Nat.not_lt.2 hcap), if_neg (Nat.not_lt.2 hfixed), h]

section Header
variable {hdr : List Byte} (hhdr : u.buf.readBytes 0 20 = some hdr)
include hhdr

theorem parseCommand_belowDeclared (h : len.toNat < declaredHeader hdr) : parseCommand u = .error .parseTooShort := by
  simp only [parseCommand, hlen, hsa, hda, if_neg (Nat.not_lt.2 hcap), if_neg (Nat.not_lt.2 hfixed), hhdr, if_pos h]

variable (hdecl : declaredHeader hdr ≤ len.toNat)
include hdecl

theorem parseCommand_optionUnset (h : u.buf.readBytes 20 (declaredHeader hdr - 20) = none) :
    parseCommand u = .error .operandUnset := by
  simp only [parseCommand, hlen, hsa, hda, if_neg (Nat.not_lt.2 hcap), if_neg (Nat.not_lt.2 hfixed), hhdr,
    if_neg (Nat.not_lt.2 hdecl), optionsBytes_eq, h]

theorem parseCommand_eq_ok {opt : List Byte} (h : u.buf.readBytes 20 (declaredHeader hdr - 20) = some opt) :
    parseCommand u = .ok (setRes0 (BitVec.ofNat 32 (max 20 (declaredHeader hdr)))
      (loadSegment (parsedSegment sa da hdr opt) u)) := by
  simp only [parseCommand, hlen, hsa, hda, if_neg (Nat.not_lt.2 hcap), if_neg (Nat.not_lt.2 hfixed), hhdr,
    if_neg (Nat.not_lt.2 hdecl), optionsBytes_eq, h]

end Header

end Fixed

end InCap

end Operands

/-! Loading the header -/

/-- Bytes that all hold a value read as the list of those values. -/
theorem readBytes_of_read {b : Nat → Byte} (h : ∀ x, a ≤ x → x < a + n → m.read x = some (b x)) :
    m.readBytes a n = some ((List.range n).map fun k => b (a + k)) :=
  readBytes_eq_some.2 ⟨by simp, fun i hi => by simp [h (a + i) (by omega) (by omega), hi]⟩

/-- Settles O14: the fixed bytes and the option bytes hold values, and every field is cut from them by its offset. -/
theorem parseLoadsHeader : Obligations.ParseLoadsHeader := by
  refine ⟨by decide, ?_⟩
  rintro s len sa da b d hlen hsa hda hcap rfl hfixed hdecl hbytes
  have hhdr : s.unit.buf.readBytes 0 20 = some ((List.range 20).map fun k => b (0 + k)) :=
    readBytes_of_read fun x _ hx => hbytes x (by omega)
  have hd := declaredHeader_eq hhdr (hbytes 12 (by omega))
  have hopt := readBytes_of_read (m := s.unit.buf) (a := 20) (n := 4 * ((b 12).toNat / 16) - 20) fun x hlo hhi =>
    hbytes x (by omega)
  rw [← hd] at hdecl hopt ⊢
  exact (exec_parse s).trans (complete_ok (parseCommand_eq_ok hlen hsa hda hcap hfixed hhdr hdecl hopt))

/-! What PARSE raises -/

/-- Settles O15: each check is reached when those before it pass. -/
theorem parseRaisesInOrder : Obligations.ParseRaisesInOrder := by
  refine fun s => ⟨fun hunset => exec_raises (parseCommand_unset hunset), fun len hlen hsaSet hdaSet => ?_⟩
  obtain ⟨sa, hsa⟩ := Option.isSome_iff_exists.1 hsaSet
  obtain ⟨da, hda⟩ := Option.isSome_iff_exists.1 hdaSet
  refine ⟨fun h => exec_raises (parseCommand_aboveCap hlen hsa hda h),
    fun hcap h => exec_raises (parseCommand_belowFixed hlen hsa hda hcap h),
    fun hcap hfixed h => exec_raises (parseCommand_fixedUnset hlen hsa hda hcap hfixed (readBytes_of_undefined h)),
    fun b hcap hfixed hdef hb => ?_⟩
  obtain ⟨hdr, hhdr⟩ : ∃ hdr, s.unit.buf.readBytes 0 20 = some hdr := by
    refine Option.ne_none_iff_exists'.1 fun hnone => ?_
    obtain ⟨x, hx, hundef⟩ := readBytes_eq_none.1 hnone
    exact hdef x hx (by rwa [Nat.zero_add] at hundef)
  rw [← declaredHeader_eq hhdr hb]
  refine ⟨fun h => exec_raises (parseCommand_belowDeclared hlen hsa hda hcap hfixed hhdr h), fun hdecl hundef => ?_⟩
  obtain ⟨x, hlo, hhi, hx⟩ := hundef
  have hopt : s.unit.buf.readBytes 20 (declaredHeader hdr - 20) = none :=
    readBytes_eq_none.2 ⟨x - 20, by omega, by rwa [Nat.add_sub_cancel' hlo]⟩
  exact exec_raises (parseCommand_optionUnset hlen hsa hda hcap hfixed hhdr hdecl hopt)

/-! The frame of PARSE -/

/-- Settles O37: a segment and RES0 are loaded and STATUS.CODE becomes OK, or a code is raised. -/
theorem parseFrame : Obligations.ParseFrame := by
  intro s t ht
  rw [exec_parse] at ht
  rcases complete_cases ht with ⟨v, hv, rfl⟩ | ⟨e, -, rfl⟩
  · obtain ⟨_, _, _, _, _, -, -, -, -, -, -, -, -, rfl⟩ := parseCommand_ok hv
    exact ⟨⟨rfl, rfl, rfl, rfl, rfl⟩, fun _ => ⟨rfl, rfl, rfl⟩, rfl, rfl, rfl⟩
  · exact ⟨⟨rfl, rfl, rfl, rfl, rfl⟩, fun _ => ⟨rfl, rfl, rfl⟩, rfl, rfl, rfl⟩

/-! Parsing a serialized segment -/

/-- The data offset of a word is the upper half of its first byte (30_encoding.md R101). -/
theorem dataOffset_firstByte (c : Half) : (c.extractLsb' 8 8).extractLsb' 4 4 = dataOffset c := by
  ext i hi
  simp only [dataOffset, BitVec.getElem_extractLsb', BitVec.getLsbD_extractLsb']
  rw [← Nat.add_assoc, decide_eq_true (by omega), Bool.true_and]

theorem declaredHeader_headerBytes : declaredHeader (headerBytes g dw ck) = 4 * dw.toNat := by
  have h12 : byteAt (headerBytes g dw ck) 12 = (packCtl dw (reservedBits g.ctl) (flagBits g.ctl)).extractLsb' 8 8 := rfl
  rw [declaredHeader, h12, dataOffset_firstByte, dataOffset_packCtl]

/-- Every field is parsed from the offset it is serialized to (30_encoding.md R100). -/
theorem parsedSegment_headerBytes (sa da : Word) (opt : List Byte) :
    parsedSegment sa da (headerBytes g dw ck) opt =
      { g with ctl := packCtl dw (reservedBits g.ctl) (flagBits g.ctl), checksum := ck, opt := opt, pay := [],
               srcAddr := sa, dstAddr := da } := by
  simp [parsedSegment, be16, be32, byteAt, headerBytes_eq, bytes16_append, bytes32_append]

theorem take_segmentBytes : (segmentBytes g dw ck).take 20 = headerBytes g dw ck := by
  rw [segmentBytes, List.append_assoc, List.append_assoc]
  exact List.take_left' (length_headerBytes g dw ck)

/-- Between the fixed header and the payload stand the options and their padding (42_serialize.md R167). -/
theorem options_segmentBytes (h : 4 * dw.toNat = hdrActual g) :
    ((segmentBytes g dw ck).drop 20).take (4 * dw.toNat - 20) =
      g.opt ++ List.replicate (pad4 g.opt.length - g.opt.length) 0x00 := by
  have hpad : 4 * dw.toNat - 20 = pad4 g.opt.length := by rw [h, hdrActual, Nat.add_sub_cancel_left]
  have hle : g.opt.length ≤ pad4 g.opt.length := by unfold pad4; omega
  rw [segmentBytes, hpad, List.append_assoc, List.append_assoc, List.drop_left' (length_headerBytes g dw ck),
    ← List.append_assoc]
  exact List.take_left' (by rw [List.length_append, List.length_replicate, Nat.add_sub_cancel' hle])

/-- What PARSE makes of a serialized segment with a consistent layout: the checksum is the one in the bytes, the options keep their
padding, the payload is empty (41_parse.md R147). -/
def reparsed (g : Segment) (ck : Half) : Segment :=
  { g with checksum := ck, pay := [], opt := g.opt ++ List.replicate (pad4 g.opt.length - g.opt.length) 0x00 }

/-- PARSE of a buffer that starts with the bytes of a segment with a consistent layout. -/
theorem parseCommand_segmentBytes {len : Half} (hlay : ConsistentLayout g)
    (hbuf : u.buf = m.writeBytes 0 (segmentBytes g (dataOffset g.ctl) ck)) (hlen : u.bufLen = some len)
    (hsa : u.inp.srcAddr = some g.srcAddr) (hda : u.inp.dstAddr = some g.dstAddr) (hcap : len.toNat ≤ Config.bufCap)
    (hhdr : hdrActual g ≤ len.toNat) :
    parseCommand u = .ok (setRes0 (BitVec.ofNat 32 (hdrActual g)) (loadSegment (reparsed g ck) u)) := by
  have hdw : 4 * (dataOffset g.ctl).toNat = hdrActual g := hlay
  have hfixed : 20 ≤ hdrActual g := Nat.le_add_right ..
  have hsize := length_segmentBytes_exact ck hdw
  have hdecl : declaredHeader (headerBytes g (dataOffset g.ctl) ck) = hdrActual g := declaredHeader_headerBytes.trans hdw
  have hread : u.buf.readBytes 0 20 = some (headerBytes g (dataOffset g.ctl) ck) := by
    rw [hbuf, ← take_segmentBytes]
    exact readBytes_writeBytes_part (a := 0) (i := 0) (by omega)
  have hopt : u.buf.readBytes 20 (hdrActual g - 20) = some (reparsed g ck).opt := by
    rw [hbuf, reparsed, ← options_segmentBytes (ck := ck) hdw, hdw]
    exact readBytes_writeBytes_part (a := 0) (i := 20) (by omega)
  rw [← hdecl] at hopt hhdr
  rw [parseCommand_eq_ok hlen hsa hda hcap (hfixed.trans (hdecl ▸ hhdr)) hread hhdr hopt, hdecl, Nat.max_eq_right hfixed,
    parsedSegment_headerBytes, packCtl_fields]
  rfl

/-- With a consistent layout the fixed-up data offset is the stored one (42_serialize.md R173). -/
theorem fixupOffset_of_consistent (h : ConsistentLayout g) : BitVec.ofNat 4 (fixupOffset g) = dataOffset g.ctl := by
  have hfix : fixupOffset g = (dataOffset g.ctl).toNat := by
    rw [fixupOffset, ← h, hdrStored, Nat.mul_div_cancel_left _ (by decide)]
  rw [hfix, BitVec.ofNat_toNat, BitVec.setWidth_eq]

/-- With a consistent layout both serialization commands emit the segment as it stands, inside BUF (42_serialize.md R166, R172). -/
theorem serialization_emits {i : Instr} (hi : i = .serialize ∨ i = .serializeFixup) (hg : u.seg = some g)
    (hlay : ConsistentLayout g) (hv : commandOf i u = .ok v) :
    wireSize g ≤ Config.bufCap ∧ v = emit g (dataOffset g.ctl) u := by
  rcases hi with rfl | rfl
  · obtain ⟨g', cap, hg', hc, hsize, -, rfl⟩ := serializeCommand_ok hv
    obtain rfl : g' = g := Option.some.inj (hg'.symm.trans hg)
    obtain ⟨-, -, -, hcap⟩ := capacityOperand_ok hc
    exact ⟨hsize.trans hcap, rfl⟩
  · obtain ⟨g', cap, hg', hc, hsize, rfl⟩ := serializeFixupCommand_ok hv
    obtain rfl : g' = g := Option.some.inj (hg'.symm.trans hg)
    obtain ⟨-, -, -, hcap⟩ := capacityOperand_ok hc
    rw [fixupSize, four_fixupOffset, ← hlay] at hsize
    exact ⟨hsize.trans hcap, by rw [fixupOffset_of_consistent hlay]⟩

/-- The checksum stands at offsets 16 and 17 (30_encoding.md R100). -/
theorem read_checksum_writeBytes (m : Memory) (g : Segment) (dw : BitVec 4) (ck : Half) :
    (m.writeBytes 0 (segmentBytes g dw ck)).read 16 = some (ck.extractLsb' 8 8) ∧
      (m.writeBytes 0 (segmentBytes g dw ck)).read 17 = some (ck.extractLsb' 0 8) := by
  have hlen := length_segmentBytes g dw ck
  constructor
  all_goals
    rw [read_writeBytes, if_pos (by omega)]
    rfl

/-- PARSE after serialization, with BUF_LEN and the two addresses set as 41_parse.md R147 says. -/
theorem exec_parse_readyToParse (hlay : ConsistentLayout g) (hsize : wireSize g ≤ Config.bufCap)
    (hbuf : t.unit.buf = m.writeBytes 0 (segmentBytes g (dataOffset g.ctl) ck)) :
    exec .parse (Claims.readyToParse t (wireSize g) g.srcAddr g.dstAddr) =
      .next ((Claims.readyToParse t (wireSize g) g.srcAddr g.dstAddr).setUnit
        (markOk (setRes0 (BitVec.ofNat 32 (hdrActual g))
          (loadSegment (reparsed g ck) (Claims.readyToParse t (wireSize g) g.srcAddr g.dstAddr).unit)))) := by
  have hlen : (BitVec.ofNat 16 (wireSize g)).toNat = wireSize g := by
    have hmax := bufCap_bounds.2
    rw [BitVec.toNat_ofNat]
    omega
  have hhdr : hdrActual g ≤ wireSize g := hlay ▸ Nat.le_add_right ..
  rw [exec_parse]
  exact complete_ok (parseCommand_segmentBytes hlay hbuf rfl rfl rfl (hlen.trans_le hsize) (hhdr.trans_eq hlen.symm))

/-- Settles O57: both commands leave the bytes of the segment with its computed checksum, and PARSE reads those back. -/
theorem parseAfterSerialize : Obligations.ParseAfterSerialize := by
  intro i s t g hi hg hlay ht hok
  rw [exec_eq_complete] at ht
  rcases complete_cases ht with ⟨v, hv, rfl⟩ | ⟨e, -, rfl⟩
  · obtain ⟨hsize, rfl⟩ := serialization_emits hi hg hlay hv
    obtain ⟨hck16, hck17⟩ :=
      read_checksum_writeBytes s.unit.buf g (dataOffset g.ctl) (segmentChecksum g (dataOffset g.ctl))
    have hbuf : (s.setUnit (markOk (emit g (dataOffset g.ctl) s.unit))).unit.buf =
        s.unit.buf.writeBytes 0 (segmentBytes g (dataOffset g.ctl) (segmentChecksum g (dataOffset g.ctl))) := by
      rw [setUnit_unit, markOk_buf, emit_buf, serializedBytes]
    rw [← hbuf] at hck16 hck17
    exact ⟨_, _, exec_parse_readyToParse hlay hsize hbuf, rfl, hck16, hck17, rfl⟩
  · cases hok

end Sys2Proof.Machine
end

section
/-! The checksum engine: the sum of the words, its folding, the range of the checksum, the receiver's check, and what a change of
one byte does. -/

namespace Sys2Proof.Machine

variable {k n : Nat} {bs cs : List Byte}

/-! The sum of the words -/

/-- What byte k of a byte string counts for in its 16-bit word (42_serialize.md R160). -/
def byteWeight (k : Nat) : Nat := if k % 2 = 0 then 0x100 else 1

theorem byteWeight_zero : byteWeight 0 = 0x100 := rfl

theorem byteWeight_one : byteWeight 1 = 1 := rfl

theorem byteWeight_add_two (k : Nat) : byteWeight (k + 2) = byteWeight k := by
  rw [byteWeight, Nat.add_mod_right, byteWeight]

theorem byteWeight_bounds (k : Nat) : 1 ≤ byteWeight k ∧ byteWeight k ≤ 0x100 := by
  unfold byteWeight
  split <;> omega

theorem sum16_singleton (hi : Byte) : sum16 [hi] = 0x100 * hi.toNat := toNat_append_eq_add hi (0 : Byte)

theorem sum16_cons_cons (hi lo : Byte) (bs : List Byte) :
    sum16 (hi :: lo :: bs) = 0x100 * hi.toNat + lo.toNat + sum16 bs := by
  exact congrArg (· + sum16 bs) (toNat_append_eq_add hi lo)

/-- After an even number of bytes the words of the rest begin anew. -/
theorem sum16_append (h : bs.length % 2 = 0) : sum16 (bs ++ cs) = sum16 bs + sum16 cs := by
  induction bs using sum16.induct with
  | case1 => exact (Nat.zero_add _).symm
  | case2 hi => cases h
  | case3 hi lo bs ih =>
    simp only [List.length_cons] at h
    rw [List.cons_append, List.cons_append, sum16_cons_cons, sum16_cons_cons, ih (by omega)]
    omega

theorem sum16_le (bs : List Byte) : sum16 bs ≤ 0xFFFF * ((bs.length + 1) / 2) := by
  induction bs using sum16.induct with
  | case1 => exact Nat.zero_le _
  | case2 hi =>
    have := hi.isLt
    rw [sum16_singleton, List.length_singleton]
    omega
  | case3 hi lo bs ih =>
    have := hi.isLt
    have := lo.isLt
    rw [sum16_cons_cons, List.length_cons, List.length_cons]
    omega

/-- Replacing byte k changes the sum by the difference of the bytes times the byte's weight. -/
theorem sum16_set (h : k < bs.length) (b : Byte) :
    sum16 (bs.set k b) + byteWeight k * (byteAt bs k).toNat = sum16 bs + byteWeight k * b.toNat := by
  induction bs using sum16.induct generalizing k with
  | case1 => cases h
  | case2 hi =>
    obtain rfl : k = 0 := by simpa using h
    simp only [List.set_cons_zero, sum16_singleton, byteWeight_zero, byteAt, List.getD_cons_zero]
    omega
  | case3 hi lo bs ih =>
    match k with
    | 0 =>
      simp only [List.set_cons_zero, sum16_cons_cons, byteWeight_zero, byteAt, List.getD_cons_zero]
      omega
    | 1 =>
      simp only [List.set_cons_succ, List.set_cons_zero, sum16_cons_cons, byteWeight_one, byteAt, List.getD_cons_succ,
        List.getD_cons_zero]
      omega
    | k + 2 =>
      have hrest : sum16 (bs.set k b) + byteWeight k * (byteAt bs k).toNat = sum16 bs + byteWeight k * b.toNat :=
        ih (by simpa using h)
      simp only [List.set_cons_succ, sum16_cons_cons, byteWeight_add_two, byteAt, List.getD_cons_succ] at hrest ⊢
      omega

/-! Folding -/

/-- A round keeps the residue modulo 65535, in 1..65535 once the loop has ended (42_serialize.md R163). -/
theorem foldRounds_eq_of_le {x : Nat} (hx : 1 ≤ x) (h : foldRounds n x ≤ 0xFFFF) : foldRounds n x = (x - 1) % 65535 + 1 := by
  induction n generalizing x with
  | zero =>
    rw [foldRounds] at h ⊢
    omega
  | succ n ih =>
    rw [foldRounds] at h ⊢
    split at h
    · next hbig =>
      rw [if_pos hbig, ih (by omega) h]
      omega
    · next hsmall =>
      rw [if_neg hsmall]
      omega

/-- Each round lowers a sum above 0xFFFF. -/
theorem foldRounds_le {x : Nat} (h : x ≤ n + 0xFFFF) : foldRounds n x ≤ 0xFFFF := by
  induction n generalizing x with
  | zero => rwa [Nat.zero_add] at h
  | succ n ih =>
    rw [foldRounds]
    split
    · exact ih (by omega)
    · omega

/-- The first round leaves at most 0x1FFFE of a 32-bit sum, the second at most 0xFFFF (42_serialize.md R164 (d)). -/
theorem foldRounds_two_le {x : Nat} (h : x < 2 ^ 32) : foldRounds 2 x ≤ 0xFFFF := by
  simp only [foldRounds]
  split
  · split <;> omega
  · omega

theorem toNat_fold16 {x : Nat} (hx : 1 ≤ x) : (fold16 x).toNat = (x - 1) % 65535 + 1 := by
  rw [fold16, foldRounds_eq_of_le hx (foldRounds_le (by omega)), BitVec.toNat_ofNat]
  omega

/-- Settles O52: the loop keeps the residue modulo 65535 and ends in 1..65535. -/
theorem fold16ClosedForm : Obligations.Fold16ClosedForm := ⟨rfl, fun _ hx => toNat_fold16 hx⟩

/-- Two rounds are enough for a sum of 32 bits (42_serialize.md R164 (d)). -/
theorem ofNat_foldRounds_two {x : Nat} (hx : 1 ≤ x) (h : x < 2 ^ 32) : BitVec.ofNat 16 (foldRounds 2 x) = fold16 x := by
  rw [fold16, foldRounds_eq_of_le hx (foldRounds_two_le h), foldRounds_eq_of_le hx (foldRounds_le (by omega))]

/-! The checksum -/

@[simp] theorem length_zeroChecksum (bs : List Byte) : (zeroChecksum bs).length = bs.length := by
  simp [zeroChecksum]

@[simp] theorem length_pseudoHeader (sa da : Word) (n : Nat) : (pseudoHeader sa da n).length = 12 := rfl

theorem sum16_pseudoHeader_append (sa da : Word) (n : Nat) (bs : List Byte) :
    sum16 (pseudoHeader sa da n ++ bs) = sum16 (pseudoHeader sa da n) + sum16 bs :=
  sum16_append (by rw [length_pseudoHeader])

/-- The protocol number is in the sum, so the sum is never 0 (30_encoding.md R104). -/
theorem sum16_pseudoHeader_pos (sa da : Word) (n : Nat) : 1 ≤ sum16 (pseudoHeader sa da n) := by
  have hprotocol : (0x06 : Byte).toNat = 6 := rfl
  rw [pseudoHeader, List.append_assoc, sum16_append (by simp), List.cons_append, List.cons_append,
    sum16_cons_cons, hprotocol]
  omega

theorem sum16_pseudoHeader_append_pos (sa da : Word) (n : Nat) (bs : List Byte) :
    1 ≤ sum16 (pseudoHeader sa da n ++ bs) :=
  (sum16_pseudoHeader_pos sa da n).trans (sum16_pseudoHeader_append sa da n bs ▸ Nat.le_add_right ..)

/-- The checksum as a number: the folded sum subtracted from 65535 (42_serialize.md R163, R164 (a)). -/
theorem toNat_tcpChecksum (sa da : Word) (bs : List Byte) : (tcpChecksum sa da bs).toNat =
    65534 - (sum16 (pseudoHeader sa da bs.length ++ zeroChecksum bs) - 1) % 65535 := by
  rw [tcpChecksum, BitVec.toNat_not, toNat_fold16 (sum16_pseudoHeader_append_pos ..)]
  omega

theorem sum16_pseudoHeader_append_lt (h : bs.length ≤ 65535) (sa da : Word) :
    sum16 (pseudoHeader sa da n ++ bs) < 2 ^ 32 := by
  have hle := sum16_le (pseudoHeader sa da n ++ bs)
  rw [List.length_append, length_pseudoHeader] at hle
  omega

/-- Settles O53: the folded sum is in 1..65535, and the sum of at most 32774 words has 32 bits. -/
theorem checksumRangeAndAccumulator : Obligations.ChecksumRangeAndAccumulator := by
  intro sa da bs
  have hpos := sum16_pseudoHeader_append_pos sa da bs.length (zeroChecksum bs)
  refine ⟨fun h => ?_, ?_, fun hlen => ?_⟩
  · have hnat := congrArg BitVec.toNat h
    rw [toNat_tcpChecksum, show (0xFFFF : Half).toNat = 65535 from rfl] at hnat
    omega
  · rw [tcpChecksum, BitVec.not_eq_comm]
    exact Iff.rfl
  · have hlt : sum16 (pseudoHeader sa da bs.length ++ zeroChecksum bs) < 2 ^ 32 :=
      sum16_pseudoHeader_append_lt (by rwa [length_zeroChecksum]) sa da
    exact ⟨hlt, ofNat_foldRounds_two hpos hlt⟩

/-- A string of 2n bytes 0xFF is n words 0xFFFF. -/
theorem sum16_replicate_ff (n : Nat) : sum16 (List.replicate (2 * n) 0xFF) = 0xFFFF * n := by
  induction n with
  | zero => rfl
  | succ n ih =>
    rw [Nat.mul_succ, List.replicate_succ, List.replicate_succ, sum16_cons_cons, ih, show (0xFF : Byte).toNat = 0xFF from rfl]
    omega

/-- 2n + 19 bytes 0xFF but for the checksum field, which holds 0. -/
def ffSegment (n : Nat) : List Byte := List.replicate 16 0xFF ++ 0 :: 0 :: (List.replicate (2 * n) 0xFF ++ [0xFF])

theorem length_ffSegment (n : Nat) : (ffSegment n).length = 2 * n + 19 := by
  simp only [ffSegment, List.length_append, List.length_cons, List.length_replicate, List.length_nil]
  omega

theorem zeroChecksum_ffSegment (n : Nat) : zeroChecksum (ffSegment n) = ffSegment n := rfl

theorem sum16_ffSegment (n : Nat) : sum16 (ffSegment n) = 0xFFFF * (n + 8) + 0xFF00 := by
  have hzero : (0 : Byte).toNat = 0 := rfl
  have hff : (0xFF : Byte).toNat = 0xFF := rfl
  rw [ffSegment, sum16_append rfl, sum16_cons_cons, sum16_append (by simp), sum16_singleton, sum16_replicate_ff 8,
    sum16_replicate_ff, hzero, hff]
  omega

/-- Refutes O54: 65535 bytes 0xFF with both addresses 0xFFFFFFFF, the checksum field counted as zero, sum to 2147712771. -/
theorem not_checksumSumBelowTwoPow31 : ¬ Obligations.ChecksumSumBelowTwoPow31 := by
  intro h
  have hlen : (ffSegment 32758).length = 65535 := length_ffSegment 32758
  have hsum := h 0xFFFFFFFF 0xFFFFFFFF (ffSegment 32758) hlen.le
  have hpseudo : sum16 (pseudoHeader 0xFFFFFFFF 0xFFFFFFFF 65535) = 327681 := by decide
  rw [sum16_pseudoHeader_append, hlen, zeroChecksum_ffSegment, sum16_ffSegment, hpseudo] at hsum
  omega

/-! The receiver's check and single-byte errors -/

theorem toNat_eq_bytes (ck : Half) : ck.toNat = 0x100 * (ck.extractLsb' 8 8).toNat + (ck.extractLsb' 0 8).toNat := by
  calc ck.toNat = (ck.extractLsb' 8 8 ++ ck.extractLsb' 0 8 : Half).toNat := by rw [bytes16_append]
    _ = _ := toNat_append_eq_add _ _

/-- Put a checksum at offsets 16 and 17, high byte first (42_serialize.md R168). -/
def insertChecksum (ck : Half) (bs : List Byte) : List Byte :=
  (bs.set 16 (ck.extractLsb' 8 8)).set 17 (ck.extractLsb' 0 8)

theorem insertChecksum_zeroChecksum (ck : Half) (bs : List Byte) :
    insertChecksum ck (zeroChecksum bs) = insertChecksum ck bs := by
  simp [insertChecksum, zeroChecksum, List.set_comm]

theorem byteAt_set_same (h : k < bs.length) (b : Byte) : byteAt (bs.set k b) k = b := by
  simp [byteAt, h]

theorem byteAt_set_other {j : Nat} (h : j ≠ k) (b : Byte) : byteAt (bs.set k b) j = byteAt bs j := by
  simp [byteAt, Ne.symm h]

/-- The checksum is a word of its own in the sum. -/
theorem sum16_insertChecksum (h : 18 ≤ bs.length) (ck : Half) :
    sum16 (insertChecksum ck bs) = sum16 (zeroChecksum bs) + ck.toNat := by
  have hlen := length_zeroChecksum bs
  have hzero : (0 : Byte).toNat = 0 := rfl
  have h16 : byteAt (zeroChecksum bs) 16 = 0 := by
    rw [zeroChecksum, byteAt_set_other (by decide), byteAt_set_same (by omega)]
  have h17 : byteAt ((zeroChecksum bs).set 16 (ck.extractLsb' 8 8)) 17 = 0 := by
    rw [byteAt_set_other (by decide), zeroChecksum, byteAt_set_same (by rw [List.length_set]; omega)]
  have hhigh := sum16_set (bs := zeroChecksum bs) (k := 16) (by omega) (ck.extractLsb' 8 8)
  have hlow := sum16_set (bs := (zeroChecksum bs).set 16 (ck.extractLsb' 8 8)) (k := 17)
    (by rw [List.length_set]; omega) (ck.extractLsb' 0 8)
  rw [h16, hzero, show byteWeight 16 = 0x100 from rfl] at hhigh
  rw [h17, hzero, show byteWeight 17 = 1 from rfl] at hlow
  rw [← insertChecksum_zeroChecksum, insertChecksum, toNat_eq_bytes ck]
  omega

/-- Settles O55: the checksum brings the sum to a positive multiple of 65535. -/
theorem receiverCheckSucceeds : Obligations.ReceiverCheckSucceeds := by
  intro sa da bs hlen
  have hpos := sum16_pseudoHeader_append_pos sa da bs.length (zeroChecksum bs)
  have hck := toNat_tcpChecksum sa da bs
  have hsum : sum16 (pseudoHeader sa da bs.length ++ insertChecksum (tcpChecksum sa da bs) bs) =
      sum16 (pseudoHeader sa da bs.length ++ zeroChecksum bs) + (tcpChecksum sa da bs).toNat := by
    rw [sum16_pseudoHeader_append, sum16_pseudoHeader_append, sum16_insertChecksum hlen, Nat.add_assoc]
  refine BitVec.eq_of_toNat_eq ?_
  rw [← insertChecksum, hsum, toNat_fold16 (by omega), show (0xFFFF : Half).toNat = 65535 from rfl]
  omega

/-- What is put at offsets 16 and 17 does not count (42_serialize.md R162). -/
theorem zeroChecksum_set_field (h : k = 16 ∨ k = 17) (b : Byte) : zeroChecksum (bs.set k b) = zeroChecksum bs := by
  rcases h with rfl | rfl
  · rw [zeroChecksum, List.set_set, zeroChecksum]
  · rw [zeroChecksum, List.set_comm _ _ (by decide), List.set_set, List.set_comm _ _ (by decide), zeroChecksum]

theorem zeroChecksum_set_other (h16 : k ≠ 16) (h17 : k ≠ 17) (b : Byte) :
    zeroChecksum (bs.set k b) = (zeroChecksum bs).set k b := by
  rw [zeroChecksum, List.set_comm _ _ h16, List.set_comm _ _ h17, zeroChecksum]

/-- Another byte anywhere outside the checksum field changes the checksum: the sum changes by at most 255 * 256, no multiple of
65535 (42_serialize.md R165). -/
theorem tcpChecksum_set_ne (hk : k < bs.length) (h16 : k ≠ 16) (h17 : k ≠ 17) {b : Byte} (hb : b ≠ byteAt bs k)
    (sa da : Word) : tcpChecksum sa da (bs.set k b) ≠ tcpChecksum sa da bs := by
  have hold : byteAt (zeroChecksum bs) k = byteAt bs k := by
    rw [zeroChecksum, byteAt_set_other h17, byteAt_set_other h16]
  have hsum := sum16_set (bs := zeroChecksum bs) (by rwa [length_zeroChecksum]) b
  have hpos := sum16_pseudoHeader_pos sa da bs.length
  rw [hold] at hsum
  intro heq
  have hnat := congrArg BitVec.toNat heq
  rw [toNat_tcpChecksum, toNat_tcpChecksum, List.length_set, zeroChecksum_set_other h16 h17, sum16_pseudoHeader_append,
    sum16_pseudoHeader_append] at hnat
  have hne : b.toNat ≠ (byteAt bs k).toNat := fun h => hb (BitVec.eq_of_toNat_eq h)
  have hb := b.isLt
  have ho := (byteAt bs k).isLt
  unfold byteWeight at hsum
  split at hsum <;> omega

theorem xor_one_shiftLeft_ne (b : Byte) {j : Nat} (hj : j < 8) : b ^^^ (1 : Byte) <<< j ≠ b := by
  intro h
  have hbit : (1 : Byte) <<< j = 0 := by simpa using h
  have := congrArg (·.getLsbD j) hbit
  simp [hj] at this

/-- Settles O56: the flipped byte is another byte. -/
theorem singleBitErrorChangesChecksum : Obligations.SingleBitErrorChangesChecksum := by
  refine fun sa da bs k j hk hj => ⟨fun h16 h17 => ?_, fun hfield => ?_⟩
  · exact tcpChecksum_set_ne hk h16 h17 (xor_one_shiftLeft_ne (byteAt bs k) hj) sa da
  · rw [tcpChecksum, zeroChecksum_set_field hfield, List.length_set, tcpChecksum]

end Sys2Proof.Machine
end

section
/-! Serialization: the codes the two commands raise, the wire bytes they leave in BUF, GET_SIZE and TAG, the frames of the
serialization commands and of the queries, and serializing again after PARSE. -/

namespace Sys2Proof.Machine

variable {s t : State} {u v : CodecUnit} {m : Memory} {g : Segment} {dw : BitVec 4} {i : Instr} {a n : Nat} {bs cs : List Byte}
  {e : Cause} {w : Word} {f : Segment → Word}

/-! The branches of the serialization commands -/

theorem toNat_dataOffset (c : Half) : (dataOffset c).toNat = c.toNat / 0x1000 := by
  have hlt := c.isLt
  rw [dataOffset, BitVec.extractLsb'_toNat, Nat.shiftRight_eq_div_pow]
  omega

theorem hdrStored_eq (g : Segment) : hdrStored g = 4 * (g.ctl.toNat / 0x1000) := by
  rw [hdrStored, toNat_dataOffset]

theorem wireSize_eq (g : Segment) : wireSize g = 4 * (g.ctl.toNat / 0x1000) + g.pay.length := by
  rw [wireSize, hdrStored_eq]

/-- The fixed-up size is that of the header the options need and the payload (42_serialize.md R174). -/
theorem fixupSize_eq (g : Segment) : fixupSize g = hdrActual g + g.pay.length := by
  rw [fixupSize, four_fixupOffset]

theorem fixupSize_of_consistent (h : ConsistentLayout g) : fixupSize g = wireSize g := by
  rw [fixupSize_eq, ← h, wireSize]

theorem toNat_ofNat_of_le_bufCap (h : n ≤ Config.bufCap) : (BitVec.ofNat 16 n).toNat = n := by
  have hmax := bufCap_bounds.2
  rw [BitVec.toNat_ofNat]
  omega

theorem capacityOperand_unset (h : u.bufLen = none) : capacityOperand u = .error .operandUnset := by
  simp only [capacityOperand, h]

section Capacity
variable {cap : Half} (hlen : u.bufLen = some cap)
include hlen

theorem capacityOperand_aboveCap (h : Config.bufCap < cap.toNat) : capacityOperand u = .error .illegalOperand := by
  simp only [capacityOperand, hlen, if_pos h]

theorem capacityOperand_eq_ok (h : cap.toNat ≤ Config.bufCap) : capacityOperand u = .ok cap.toNat := by
  simp only [capacityOperand, hlen, if_neg (Nat.not_lt.2 h)]

end Capacity

theorem capacityOperand_congr (h : u.bufLen = v.bufLen) : capacityOperand u = capacityOperand v := by
  simp only [capacityOperand, h]

theorem capacityOperand_ne_layoutMismatch : capacityOperand u ≠ .error .layoutMismatch := by
  unfold capacityOperand
  split
  · nofun
  · split <;> nofun

section Branches
variable (hi : i = .serialize ∨ i = .serializeFixup)
include hi

theorem serialization_noSegment (hg : u.seg = none) : commandOf i u = .error .noSegment := by
  rcases hi with rfl | rfl
  · exact (needSegment_none hg : serializeCommand u = _)
  · exact (needSegment_none hg : serializeFixupCommand u = _)

theorem serialization_capacity_error (hg : u.seg = some g) (hc : capacityOperand u = .error e) :
    commandOf i u = .error e := by
  rcases hi with rfl | rfl
  · simp only [commandOf, serializeCommand, needSegment_some hg, hc]
  · simp only [commandOf, serializeFixupCommand, needSegment_some hg, hc]

end Branches

section Segment
variable (hg : u.seg = some g) (hc : capacityOperand u = .ok n)
include hg hc

theorem serializeCommand_tooSmall (h : n < wireSize g) : serializeCommand u = .error .bufferTooSmall := by
  simp only [serializeCommand, needSegment_some hg, hc, if_pos h]

theorem serializeCommand_mismatch (hsize : wireSize g ≤ n) (h : hdrStored g ≠ hdrActual g) :
    serializeCommand u = .error .layoutMismatch := by
  simp only [serializeCommand, needSegment_some hg, hc, if_neg (Nat.not_lt.2 hsize), if_pos h]

theorem serializeCommand_eq_ok (hsize : wireSize g ≤ n) (h : ConsistentLayout g) :
    serializeCommand u = .ok (emit g (dataOffset g.ctl) u) := by
  simp only [serializeCommand, needSegment_some hg, hc, if_neg (Nat.not_lt.2 hsize), if_neg (not_not.2 h)]

theorem serializeFixupCommand_tooSmall (h : n < fixupSize g) : serializeFixupCommand u = .error .bufferTooSmall := by
  simp only [serializeFixupCommand, needSegment_some hg, hc, if_pos h]

theorem serializeFixupCommand_eq_ok (hsize : fixupSize g ≤ n) :
    serializeFixupCommand u = .ok (emit g (BitVec.ofNat 4 (fixupOffset g)) u) := by
  simp only [serializeFixupCommand, needSegment_some hg, hc, if_neg (Nat.not_lt.2 hsize)]

end Segment

/-- The fixup form has no check of the layout (42_serialize.md R172). -/
theorem serializeFixupCommand_ne_layoutMismatch : serializeFixupCommand u ≠ .error .layoutMismatch := by
  simp only [serializeFixupCommand, needSegment]
  split
  · nofun
  · split
    · next hc =>
      rintro ⟨⟩
      exact capacityOperand_ne_layoutMismatch hc
    · split <;> nofun

/-- Settles O17: each check is reached when those before it pass. -/
theorem serializeRaisesInOrder : Obligations.SerializeRaisesInOrder := by
  have hi : Instr.serialize = .serialize ∨ Instr.serialize = .serializeFixup := .inl rfl
  refine fun s => ⟨fun hg => exec_raises (serialization_noSegment hi hg), fun g hg =>
    ⟨fun hlen => exec_raises (serialization_capacity_error hi hg (capacityOperand_unset hlen)), fun cap hlen =>
      ⟨fun h => exec_raises (serialization_capacity_error hi hg (capacityOperand_aboveCap hlen h)), ?_, ?_⟩⟩⟩
  · intro hcap h
    rw [← wireSize_eq] at h
    exact exec_raises (serializeCommand_tooSmall hg (capacityOperand_eq_ok hlen hcap) h)
  · intro hcap hsize h
    rw [← wireSize_eq] at hsize
    rw [← hdrStored_eq] at h
    exact exec_raises (serializeCommand_mismatch hg (capacityOperand_eq_ok hlen hcap) hsize h)

/-- Settles O19: the checks before the size are those of SERIALIZE, and none is of the layout. -/
theorem serializeFixupRaisesInOrder : Obligations.SerializeFixupRaisesInOrder := by
  have hi : Instr.serializeFixup = .serialize ∨ Instr.serializeFixup = .serializeFixup := .inr rfl
  refine fun s => ⟨fun hg => exec_raises (serialization_noSegment hi hg), fun g hg =>
    ⟨fun hlen => exec_raises (serialization_capacity_error hi hg (capacityOperand_unset hlen)), fun cap hlen =>
      ⟨fun h => exec_raises (serialization_capacity_error hi hg (capacityOperand_aboveCap hlen h)), fun hcap h => ?_⟩⟩,
    fun t ht => ?_⟩
  · exact exec_raises (serializeFixupCommand_tooSmall hg (capacityOperand_eq_ok hlen hcap) ((fixupSize_eq g).symm ▸ h))
  · rw [exec_eq_complete] at ht
    rcases complete_cases ht with ⟨v, -, rfl⟩ | ⟨e, he, rfl⟩
    · nofun
    · intro hcode
      obtain rfl : e = .layoutMismatch := by simpa using hcode
      exact serializeFixupCommand_ne_layoutMismatch he

/-! The wire bytes -/

theorem holds_writeBytes (m : Memory) (a : Nat) (bs : List Byte) : Claims.Holds (m.writeBytes a bs) a bs := fun k hk => by
  rw [read_writeBytes, if_pos (by omega), Nat.add_sub_cancel_left]

theorem read_of_holds {k : Nat} {b : Byte} (h : Claims.Holds m 0 bs) (hk : bs[k]? = some b) : m.read k = some b := by
  obtain ⟨hlt, -⟩ := List.getElem?_eq_some_iff.1 hk
  rw [← hk, ← h k hlt, Nat.zero_add]

theorem holds_of_append (h : Claims.Holds m a (bs ++ cs)) :
    Claims.Holds m a bs ∧ Claims.Holds m (a + bs.length) cs := by
  unfold Claims.Holds at h ⊢
  rw [List.length_append] at h
  refine ⟨fun k hk => ?_, fun k hk => ?_⟩
  · rw [h k (by omega), List.getElem?_append_left hk]
  · rw [Nat.add_assoc, h _ (by omega), List.getElem?_append_right (by omega), Nat.add_sub_cancel_left]

/-- Wire byte 12: the data offset above the reserved bits (30_encoding.md R101). -/
theorem packCtl_highByte (d r : BitVec 4) (b : Byte) : (packCtl d r b).extractLsb' 8 8 = (d ++ r : Byte) := by
  rw [packCtl]
  exact BitVec.extractLsb'_append_eq_left

/-- The parts of a serialized segment in BUF, one after another (42_serialize.md R167). -/
theorem holds_segmentBytes {ck : Half} (h : 4 * dw.toNat = hdrActual g) (hall : Claims.Holds m 0 (segmentBytes g dw ck)) :
    Claims.Holds m 0 (headerBytes g dw ck) ∧ Claims.Holds m 20 g.opt ∧
      (∀ x, 20 + g.opt.length ≤ x → x < 4 * dw.toNat → m.read x = some 0x00) ∧ Claims.Holds m (4 * dw.toNat) g.pay := by
  have hle : 20 + g.opt.length ≤ 4 * dw.toNat := by rw [h, hdrActual, pad4]; omega
  obtain ⟨hheader, hpay⟩ := holds_of_append hall
  obtain ⟨hunpadded, hpad⟩ := holds_of_append hheader
  obtain ⟨hhdr, hopt⟩ := holds_of_append hunpadded
  simp only [List.length_append, length_headerBytes, List.length_replicate, Nat.zero_add] at hopt hpad hpay
  refine ⟨hhdr, hopt, fun x hlo hhi => ?_, ?_⟩
  · have hx := hpad (x - (20 + g.opt.length)) (by rw [List.length_replicate]; omega)
    rwa [Nat.add_sub_cancel' hlo, List.getElem?_replicate, if_pos (by omega)] at hx
  · rwa [show 20 + g.opt.length + (4 * dw.toNat - 20 - g.opt.length) = 4 * dw.toNat by omega] at hpay

/-- BUF after a serialization: the wire bytes written from byte 0 on (42_serialize.md R167). -/
theorem buf_setUnit_emit (g : Segment) (dw : BitVec 4) (s : State) : (s.setUnit (markOk (emit g dw s.unit))).unit.buf =
    s.unit.buf.writeBytes 0 (segmentBytes g dw (segmentChecksum g dw)) := by
  rw [setUnit_unit, markOk_buf, emit_buf, serializedBytes]

/-- The registers after a serialization: BUF, RES0 and STATUS.CODE are written, nothing else (42_serialize.md R167, R171). -/
theorem setUnit_emit (g : Segment) (dw : BitVec 4) (s : State) : s.setUnit (markOk (emit g dw s.unit)) =
    { s with unit := { s.unit with
      buf := s.unit.buf.writeBytes 0 (serializedBytes g dw),
      res0 := some (BitVec.ofNat 32 (4 * dw.toNat + g.pay.length)), code := .ok } } := by
  simp only [State.setUnit, markOk, emit, setRes0]

/-- A serialization leaves the rest of the system, the segment, the operand bank, RES1 and RES2 unchanged. -/
theorem setUnit_emit_frame (g : Segment) (dw : BitVec 4) (s : State) :
    Claims.SystemFrame s (s.setUnit (markOk (emit g dw s.unit))) ∧
      (s.setUnit (markOk (emit g dw s.unit))).unit.seg = s.unit.seg ∧
      (s.setUnit (markOk (emit g dw s.unit))).unit.inp = s.unit.inp ∧
      (s.setUnit (markOk (emit g dw s.unit))).unit.res1 = s.unit.res1 ∧
      (s.setUnit (markOk (emit g dw s.unit))).unit.res2 = s.unit.res2 := by
  simp [Claims.SystemFrame]

/-- Emitting with the header length the options need leaves the wire bytes behind (42_serialize.md R167, R168, R171). -/
theorem emitted_emit (h : 4 * dw.toNat = hdrActual g) (s : State) :
    Claims.Emitted s (s.setUnit (markOk (emit g dw s.unit))) g dw := by
  have hbuf := buf_setUnit_emit g dw s
  have hall := holds_writeBytes s.unit.buf 0 (segmentBytes g dw (segmentChecksum g dw))
  have hck := read_checksum_writeBytes s.unit.buf g dw (segmentChecksum g dw)
  have hlen := length_segmentBytes_exact (segmentChecksum g dw) h
  have hsum : tcpChecksum g.srcAddr g.dstAddr (segmentBytes g dw (segmentChecksum g dw)) = segmentChecksum g dw :=
    tcpChecksum_segmentBytes ..
  rw [← hbuf] at hall hck
  obtain ⟨hhdr, hopt, hpad, hpay⟩ := holds_segmentBytes h hall
  have hbyte {k : Nat} {b : Byte} := read_of_holds (k := k) (b := b) hhdr
  refine ⟨by rw [setUnit_emit], hbyte rfl, hbyte rfl, hbyte rfl, hbyte rfl, hbyte rfl, hbyte rfl, hbyte rfl, hbyte rfl,
    hbyte rfl, hbyte rfl, hbyte rfl, hbyte rfl, hbyte (congrArg some (packCtl_highByte ..)),
    hbyte (congrArg some (flagBits_packCtl ..)), hbyte rfl, hbyte rfl, hbyte rfl, hbyte rfl, hopt, hpad, hpay,
    fun x hx => ?_, _, hlen, hall, hsum.symm ▸ hck⟩
  rw [hbuf, read_writeBytes_outside (.inr (by omega))]

/-- Settles O16: the checks pass and the segment is emitted with its stored data offset. -/
theorem serializeEmitsSegment : Obligations.SerializeEmitsSegment := by
  refine ⟨by decide, fun s g cap hg hlen hcap hlay hsize => ⟨_, ?_, emitted_emit hlay s⟩⟩
  rw [exec_eq_complete]
  exact complete_ok (serializeCommand_eq_ok hg (capacityOperand_eq_ok hlen hcap) hsize hlay)

/-- Settles O18: the checks pass and the segment is emitted with the data offset its options need. -/
theorem serializeFixupEmitsSegment : Obligations.SerializeFixupEmitsSegment := by
  refine ⟨by decide, fun s g cap dfx hg hlen hcap hopt hdfx hsize => ?_⟩
  have hoff : BitVec.ofNat 4 (fixupOffset g) = dfx := BitVec.eq_of_toNat_eq ((toNat_fixupOffset hopt).trans hdfx.symm)
  have hdw : 4 * dfx.toNat = hdrActual g := hdfx ▸ four_fixupOffset g
  have hfix : fixupSize g ≤ cap.toNat := by rw [fixupSize_eq, ← hdw]; exact hsize
  refine ⟨hdfx ▸ (fixupOffset_bounds hopt).1, _, ?_, emitted_emit hdw s⟩
  rw [exec_eq_complete, ← hoff]
  exact complete_ok (serializeFixupCommand_eq_ok hg (capacityOperand_eq_ok hlen hcap) hfix)

/-! The sizes -/

/-- With a consistent layout the two serialization commands do the same (42_serialize.md R177). -/
theorem serializeCommand_eq_fixup (hg : u.seg = some g) (h : ConsistentLayout g) :
    serializeCommand u = serializeFixupCommand u := by
  simp only [serializeCommand, serializeFixupCommand, needSegment_some hg, fixupSize_of_consistent h,
    fixupOffset_of_consistent h, if_neg (not_not.2 h)]

/-- Settles O20: the commands are the same, and a serialization that succeeds has emitted the segment as it stands. -/
theorem sizesAgreeForConsistentLayout : Obligations.SizesAgreeForConsistentLayout := by
  intro s g hg hlay
  refine ⟨?_, ⟨_, (exec_eq_complete ..).trans (complete_query_some hg), rfl⟩, fun t ht hok => ?_,
    fun cap hlen hcap hsize => ?_⟩
  · rw [exec_eq_complete, exec_eq_complete]
    simp only [complete, commandOf, serializeCommand_eq_fixup hg hlay]
  · rw [exec_eq_complete] at ht
    rcases complete_cases ht with ⟨v, hv, rfl⟩ | ⟨e, -, rfl⟩
    · obtain ⟨-, rfl⟩ := serialization_emits (.inl rfl) hg hlay hv
      simp [wireSize, hdrStored]
    · cases hok
  · have hsmall := serializeCommand_tooSmall hg (capacityOperand_eq_ok hlen hcap) (by omega)
    exact ⟨exec_raises hsmall, exec_raises ((serializeCommand_eq_fixup hg hlay).symm.trans hsmall)⟩

/-- A command that runs a query is one in the sense of the statements. -/
theorem query_claim_of_commandOf (hd : decode w = .ok i) (hc : commandOf i = query f) : Claims.Query i w f :=
  ⟨hd, fun s => ⟨fun g hg => by
    rw [exec_eq_complete, hc, complete_query_some hg]
    rfl, fun hg => exec_raises (by simp only [hc, query_eq, hg])⟩⟩

/-- Settles O21: both are queries, and a 4-bit data offset states at most 60 header bytes. -/
theorem getSizeAndTagResults : Obligations.GetSizeAndTagResults := by
  refine ⟨query_claim_of_commandOf (by decide) ?_, query_claim_of_commandOf (by decide) rfl, fun g hg => ⟨?_, ?_⟩⟩
  · simp only [commandOf, wireSize_eq]
  · have hctl := g.ctl.isLt
    have hpay := hg.payFits
    omega
  · have hmax := payloadMax_bound
    omega

/-! What serialization depends on and what it leaves unchanged -/

/-- The data offset a serialization command emits: the stored one, or the one the options need (42_serialize.md R166, R172). -/
def emitOffset (i : Instr) (g : Segment) : BitVec 4 :=
  if i = .serialize then dataOffset g.ctl else BitVec.ofNat 4 (fixupOffset g)

theorem emitOffset_serializeFixup (g : Segment) : emitOffset .serializeFixup g = BitVec.ofNat 4 (fixupOffset g) := rfl

/-- SEG.checksum is not emitted (42_serialize.md R168). -/
theorem emit_withChecksum (g : Segment) (ck : Half) (dw : BitVec 4) (u : CodecUnit) :
    emit { g with checksum := ck } dw u = emit g dw u := rfl

section Serialization
variable (hi : i = .serialize ∨ i = .serializeFixup)
include hi

theorem serialization_ok (hv : commandOf i u = .ok v) : ∃ g, u.seg = some g ∧ v = emit g (emitOffset i g) u := by
  rcases hi with rfl | rfl
  · obtain ⟨g, -, hg, -, -, -, rfl⟩ := serializeCommand_ok hv
    exact ⟨g, hg, rfl⟩
  · obtain ⟨g, -, hg, -, -, rfl⟩ := serializeFixupCommand_ok hv
    exact ⟨g, hg, rfl⟩

/-- A serialization that succeeds emits the header length the options need, inside BUF. -/
theorem serialization_fits (hg : u.seg = some g) (hopt : g.opt.length ≤ Config.optMax) (hv : commandOf i u = .ok v) :
    4 * (emitOffset i g).toNat = hdrActual g ∧ hdrActual g + g.pay.length ≤ Config.bufCap := by
  rcases hi with rfl | rfl
  · obtain ⟨g', cap, hg', hc, hsize, hlay, -⟩ := serializeCommand_ok hv
    obtain rfl : g' = g := Option.some.inj (hg'.symm.trans hg)
    obtain ⟨-, -, -, hcap⟩ := capacityOperand_ok hc
    exact ⟨hlay, hlay ▸ hsize.trans hcap⟩
  · obtain ⟨g', cap, hg', hc, hsize, -⟩ := serializeFixupCommand_ok hv
    obtain rfl : g' = g := Option.some.inj (hg'.symm.trans hg)
    obtain ⟨-, -, -, hcap⟩ := capacityOperand_ok hc
    exact ⟨by rw [emitOffset_serializeFixup, toNat_fixupOffset hopt, four_fixupOffset], fixupSize_eq g' ▸ hsize.trans hcap⟩

/-- In a unit with the same capacity and a segment that differs at most in SEG.checksum, the same checks fail, and otherwise the
same segment is emitted (42_serialize.md R168). -/
theorem serialization_congr {ck : Half} (hg : u.seg = some g) (hg' : v.seg = some { g with checksum := ck })
    (hlen : u.bufLen = v.bufLen) : commandOf i v = (commandOf i u).map fun _ => emit g (emitOffset i g) v := by
  have hcap := capacityOperand_congr hlen
  cases hc : capacityOperand u with
  | error e =>
    rw [serialization_capacity_error hi hg hc, serialization_capacity_error hi hg' (hcap ▸ hc)]
    rfl
  | ok n =>
    rw [hc] at hcap
    rcases hi with rfl | rfl
    · simp only [commandOf]
      by_cases hsize : n < wireSize g
      · rw [serializeCommand_tooSmall hg hc hsize, serializeCommand_tooSmall hg' hcap.symm hsize]
        rfl
      · by_cases hlay : ConsistentLayout g
        · rw [serializeCommand_eq_ok hg hc (Nat.not_lt.1 hsize) hlay,
            serializeCommand_eq_ok hg' hcap.symm (Nat.not_lt.1 hsize) hlay, emit_withChecksum]
          rfl
        · rw [serializeCommand_mismatch hg hc (Nat.not_lt.1 hsize) hlay,
            serializeCommand_mismatch hg' hcap.symm (Nat.not_lt.1 hsize) hlay]
          rfl
    · simp only [commandOf]
      by_cases hsize : n < fixupSize g
      · rw [serializeFixupCommand_tooSmall hg hc hsize, serializeFixupCommand_tooSmall hg' hcap.symm hsize]
        rfl
      · rw [serializeFixupCommand_eq_ok hg hc (Nat.not_lt.1 hsize),
          serializeFixupCommand_eq_ok hg' hcap.symm (Nat.not_lt.1 hsize), emit_withChecksum]
        rfl

end Serialization

/-- Settles O22: the second run raises what the first raises, or emits the same bytes. -/
theorem serializeIgnoresOldBufferAndChecksum : Obligations.SerializeIgnoresOldBufferAndChecksum := by
  intro i s s' t t' g ck hi hg hg' hlen hopt ht ht'
  rw [exec_eq_complete] at ht ht'
  have hcongr := serialization_congr hi hg hg' hlen
  rcases complete_cases ht with ⟨v, hv, rfl⟩ | ⟨e, he, rfl⟩
  · obtain ⟨hdw, hfits⟩ := serialization_fits hi hg hopt hv
    obtain ⟨g₁, hg₁, rfl⟩ := serialization_ok hi hv
    obtain rfl : g₁ = g := Option.some.inj (hg₁.symm.trans hg)
    rw [hv] at hcongr
    rw [complete_ok hcongr] at ht'
    cases ht'
    simp only [setUnit_unit, markOk_code, markOk_res0, markOk_buf, emit_res0, emit_buf]
    refine ⟨trivial, fun _ => ⟨trivial, fun n hn hlt x hx => ?_⟩⟩
    have hbytes := length_serializedBytes_exact hdw
    have hmax := bufCap_bounds.2
    have hcount : (4 * (emitOffset i g₁).toNat + g₁.pay.length) % 2 ^ 32 = n % 2 ^ 32 := by
      simpa [← BitVec.toNat_inj] using hn
    rw [read_writeBytes, if_pos (by omega), read_writeBytes, if_pos (by omega)]
  · rw [he] at hcongr
    rw [complete_error hcongr] at ht'
    cases ht'
    exact ⟨rfl, nofun⟩

/-- Settles O39: the segment is emitted and STATUS.CODE becomes OK, or a code is raised. -/
theorem serializeFrame : Obligations.SerializeFrame := by
  intro i s t hi ht
  rw [exec_eq_complete] at ht
  rcases complete_cases ht with ⟨v, hv, rfl⟩ | ⟨e, -, rfl⟩
  · obtain ⟨g, hg, rfl⟩ := serialization_ok hi hv
    have hout {g' : Segment} {x : Nat} (hg' : s.unit.seg = some g')
        (hx : (serializedBytes g' (emitOffset i g')).length ≤ x) :
        (s.setUnit (markOk (emit g (emitOffset i g) s.unit))).unit.buf.read x = s.unit.buf.read x := by
      obtain rfl : g' = g := Option.some.inj (hg'.symm.trans hg)
      rw [buf_setUnit_emit]
      exact read_writeBytes_outside (.inr (by rwa [Nat.zero_add]))
    obtain ⟨hsys, hseg, hinp, hres1, hres2⟩ := setUnit_emit_frame g (emitOffset i g) s
    refine ⟨hsys, hseg, hinp, hres1, hres2, fun hne => absurd (markOk_code _) hne, ?_, ?_⟩
    · rintro g' x hg' rfl hx
      exact hout hg' hx
    · rintro g' x hg' rfl hx
      exact hout hg' hx
  · exact ⟨⟨rfl, rfl, rfl, rfl, rfl⟩, rfl, rfl, rfl, rfl, fun _ _ => rfl, fun _ _ _ _ _ => rfl, fun _ _ _ _ _ => rfl⟩

/-! The frame of the queries -/

/-- What a pure query may write: RES0, and RES1 and RES2 if it is FORMAT. -/
theorem pureQuery_ok (hi : i ∈ Claims.pureQueries) (hv : commandOf i u = .ok v) :
    ∃ r0 r1 r2, v = { u with res0 := r0, res1 := r1, res2 := r2 } ∧ (i ≠ .format → r1 = u.res1 ∧ r2 = u.res2) := by
  cases i with
  | newAck | newAckSyn | newRst | fromHeader | parse | serialize | serializeFixup => exact absurd hi (by decide)
  | setField f => simp [Claims.pureQueries] at hi
  | getField f =>
    obtain ⟨g, w, -, -, rfl⟩ := getFieldCommand_ok hv
    refine ⟨some w, _, _, ?_, fun _ => ⟨rfl, rfl⟩⟩
    cases f
    case options | payload => exact absurd hi (by decide)
    all_goals rfl
  | format =>
    obtain ⟨g, -, rfl⟩ := formatCommand_ok hv
    exact ⟨_, _, _, rfl, fun h => absurd rfl h⟩
  | getSize | tag | getSrcPort | getDstPort | getSeq | getAck | getSrcAddr | getDstAddr | isAck | isRst | isSyn | isFin
  | isRstOrFin =>
    obtain ⟨g, -, rfl⟩ := query_ok hv
    exact ⟨_, _, _, rfl, fun _ => ⟨rfl, rfl⟩⟩

/-- Settles O34: result registers are written and STATUS.CODE becomes OK, or a code is raised. -/
theorem queryFrame : Obligations.QueryFrame := by
  intro i s t hi ht
  rw [exec_eq_complete] at ht
  rcases complete_cases ht with ⟨v, hv, rfl⟩ | ⟨e, -, rfl⟩
  · obtain ⟨r0, r1, r2, rfl, hres⟩ := pureQuery_ok hi hv
    exact ⟨⟨rfl, rfl, rfl, rfl, rfl⟩, fun _ => ⟨rfl, rfl, rfl⟩, rfl, rfl, hres⟩
  · exact ⟨⟨rfl, rfl, rfl, rfl, rfl⟩, fun _ => ⟨rfl, rfl, rfl⟩, rfl, rfl, fun _ => ⟨rfl, rfl⟩⟩

/-! Serializing again -/

/-- Writing the same bytes again changes nothing. -/
theorem read_writeBytes_again (m : Memory) (a : Nat) (bs : List Byte) (x : Nat) :
    ((m.writeBytes a bs).writeBytes a bs).read x = (m.writeBytes a bs).read x := by
  by_cases hx : a ≤ x ∧ x < a + bs.length
  · rw [read_writeBytes, if_pos hx, read_writeBytes, if_pos hx]
  · rw [read_writeBytes, if_neg hx]

/-- With no padding and no payload only the checksum comes back changed (41_parse.md R147). -/
theorem reparsed_of_no_padding {ck : Half} (hopt : g.opt.length % 4 = 0) (hpay : g.pay = []) :
    reparsed g ck = { g with checksum := ck } := by
  have hpad : pad4 g.opt.length - g.opt.length = 0 := by unfold pad4; omega
  rw [reparsed, hpad, List.replicate_zero, List.append_nil, hpay]

/-- SERIALIZE with the capacity that GET_SIZE returns, whatever SEG.checksum holds (42_serialize.md R168, R177). -/
theorem exec_serialize_withChecksum {ck : Half} (hg : s.unit.seg = some { g with checksum := ck })
    (hlen : s.unit.bufLen = some (BitVec.ofNat 16 (wireSize g))) (hsize : wireSize g ≤ Config.bufCap)
    (hlay : ConsistentLayout g) :
    exec .serialize s = .next (s.setUnit (markOk (emit g (dataOffset g.ctl) s.unit))) := by
  have hcap := toNat_ofNat_of_le_bufCap hsize
  have hser := serializeCommand_eq_ok hg (capacityOperand_eq_ok hlen (hcap.trans_le hsize)) hcap.ge hlay
  rw [emit_withChecksum] at hser
  exact (exec_eq_complete ..).trans (complete_ok hser)

/-- Settles O58: PARSE brings back the segment but for its checksum, which serialization does not read. -/
theorem reserializeIsIdentical : Obligations.ReserializeIsIdentical := by
  intro s t r q g hg hlay hopt hpay ht hok hr hq
  rw [exec_eq_complete] at ht
  rcases complete_cases ht with ⟨v, hv, rfl⟩ | ⟨e, -, rfl⟩
  · obtain ⟨hsize, rfl⟩ := serialization_emits (.inl rfl) hg hlay hv
    rw [exec_parse_readyToParse hlay hsize (buf_setUnit_emit ..), reparsed_of_no_padding hopt hpay] at hr
    cases hr
    rw [exec_serialize_withChecksum (g := g) rfl rfl hsize hlay] at hq
    cases hq
    simp only [setUnit_unit, markOk_code, markOk_res0, emit_res0, markOk_buf, emit_buf, setRes0_buf, loadSegment_buf,
      Claims.readyToParse]
    exact ⟨trivial, trivial, read_writeBytes_again s.unit.buf 0 _⟩
  · cases hok

end Sys2Proof.Machine
end

section
/-! The accessors: the field readers, GET_FIELD by the kind of its field, the flag predicates, and the frame of GET_FIELD OPTIONS and
PAYLOAD. -/

namespace Sys2Proof.Machine

variable {s t : State} {u : CodecUnit} {b : OperandBank} {g : Segment} {i : Instr} {f : Fid} {m : Memory} {bs : List Byte}
  {w : Word} {c : Half}

/-! The field readers -/

/-- Settles O23: each reader is the query of its field. -/
theorem readersReturnFields : Obligations.ReadersReturnFields :=
  ⟨query_claim_of_commandOf (by decide) (by simp only [commandOf, BitVec.ofNat_toNat]),
    query_claim_of_commandOf (by decide) (by simp only [commandOf, BitVec.ofNat_toNat]),
    query_claim_of_commandOf (by decide) rfl, query_claim_of_commandOf (by decide) rfl,
    query_claim_of_commandOf (by decide) rfl, query_claim_of_commandOf (by decide) rfl⟩

/-! GET_FIELD -/

theorem getFieldCommand_eq_ok (hf : f.legal = true) (hg : u.seg = some g) (hw : fieldWord f g = some w) :
    getFieldCommand f u = .ok (setRes0 w { u with inp := copyOut f g u.inp }) := by
  simp only [getFieldCommand, hf, if_true, needSegment_some hg, hw]

/-- GET_FIELD with a legal selector and a segment: the copy to the operand bank, the field in RES0, STATUS.CODE is OK, nothing else
changes (43_accessors.md R206). -/
theorem exec_getField (hf : f.legal = true) (hg : s.unit.seg = some g) (hw : fieldWord f g = some w) :
    exec (.getField f) s = .next { s with unit :=
      { s.unit with inp := copyOut f g s.unit.inp, res0 := some w, code := .ok } } :=
  (exec_eq_complete ..).trans (complete_ok (getFieldCommand_eq_ok hf hg hw))

/-- A selector that writes no operand register writes its field to RES0 and nothing else (43_accessors.md R207, R208). -/
theorem getsField_of_fieldWord {r : Segment → Word} (hf : f.legal = true) (hbank : ∀ g b, copyOut f g b = b)
    (hw : ∀ g, fieldWord f g = some (r g)) : Claims.GetsField f r := fun s g hg => by
  rw [exec_getField hf hg (hw g), hbank]

theorem toNat_reservedBits (c : Half) : (reservedBits c).toNat = c.toNat / 0x100 % 0x10 := by
  rw [reservedBits, BitVec.extractLsb'_toNat, Nat.shiftRight_eq_div_pow]

theorem toNat_flagBits (c : Half) : (flagBits c).toNat = c.toNat % 0x100 := by
  rw [flagBits, BitVec.extractLsb'_toNat, Nat.shiftRight_zero]

/-- Settles O24: none of the twelve selectors writes the operand bank. -/
theorem getFieldReturnsField : Obligations.GetFieldReturnsField := by
  refine ⟨?_, ?_, ?_, ?_, ?_, ?_, ?_, ?_, ?_, ?_, ?_, ?_⟩
  all_goals
    refine getsField_of_fieldWord rfl (fun _ _ => rfl) fun g => ?_
    simp only [fieldWord, BitVec.ofNat_toNat, ← toNat_dataOffset, ← toNat_reservedBits, ← toNat_flagBits]

/-- A copy from index 0 leaves the bytes at and above its length (43_accessors.md R209). -/
theorem read_writeBytes_above {x : Nat} (hx : bs.length ≤ x) : (m.writeBytes 0 bs).read x = m.read x :=
  read_writeBytes_outside (.inr (by rwa [Nat.zero_add]))

/-- Settles O25: the copy is a write of consecutive bytes from index 0. -/
theorem getFieldCopiesIntoBank : Obligations.GetFieldCopiesIntoBank := by
  refine ⟨fun s g hg => ⟨_, exec_getField rfl hg rfl, rfl, ?_, fun x => ?_⟩,
    fun s g hg => ⟨_, exec_getField rfl hg rfl, rfl, ?_, fun x => ?_⟩⟩
  · exact holds_writeBytes s.unit.inp.opt 0 g.opt
  · exact read_writeBytes_above
  · exact holds_writeBytes s.unit.inp.pay 0 g.pay
  · exact read_writeBytes_above

/-! SET_FIELD after GET_FIELD -/

/-- Bytes written from index 0, with their number in the length register, are the operand (40_construction.md R129, R130). -/
theorem sequenceOperand_writeBytes {n cap : Nat} (hlen : bs.length ≤ cap) (hcap : cap < 2 ^ n) :
    sequenceOperand (some (BitVec.ofNat n bs.length)) cap (m.writeBytes 0 bs) = .ok bs := by
  have hnum : (BitVec.ofNat n bs.length).toNat = bs.length := by
    rw [BitVec.toNat_ofNat, Nat.mod_eq_of_lt (hlen.trans_lt hcap)]
  rw [sequenceOperand_inRange (hnum.trans_le hlen), hnum, readBytes_writeBytes_same]
  rfl

/-- What GET_FIELD copied out is the operand that puts the same bytes back. -/
theorem replaceField_copyOut (hf : f = .options ∨ f = .payload) (hg : SegmentGood g) :
    replaceField f (copyOut f g b) g = .ok g := by
  rcases hf with rfl | rfl
  · rw [replaceField, optionsOperand_eq, copyOut, sequenceOperand_writeBytes hg.optFits (by decide)]
    rfl
  · have hmax : Config.payloadMax < 2 ^ 16 := payloadMax_bound.trans_lt (by decide)
    rw [replaceField, payloadOperand_eq, copyOut, sequenceOperand_writeBytes hg.payFits hmax]
    rfl

/-- Settles O26: SET_FIELD takes the operand that GET_FIELD copied out. -/
theorem getThenSetFieldKeepsSegment : Obligations.GetThenSetFieldKeepsSegment := by
  intro f s t r g hf hg hgood ht hr
  obtain ⟨hlegal, w, hw⟩ : f.legal = true ∧ ∃ w, fieldWord f g = some w := by
    rcases hf with rfl | rfl
    · exact ⟨rfl, _, rfl⟩
    · exact ⟨rfl, _, rfl⟩
  obtain ⟨hseg, hbank⟩ : t.unit.seg = some g ∧ t.unit.inp = copyOut f g s.unit.inp := by
    rw [exec_getField hlegal hg hw] at ht
    cases ht
    exact ⟨hg, rfl⟩
  rw [exec_setField_ok hlegal hseg (hbank ▸ replaceField_copyOut hf hgood)] at hr
  cases hr
  exact ⟨rfl, rfl⟩

/-! The flag predicates -/

theorem boolWord_eq_ite (p : Bool) : boolWord p = if p then 1 else 0 := by cases p <;> rfl

theorem boolWord_or (p q : Bool) : boolWord (p || q) = boolWord p ||| boolWord q := by cases p <;> cases q <;> rfl

/-- A flag is set exactly when its bit of the word's number is 1. -/
theorem flagSet_iff {flag : TcpFlag} : flagSet flag c = true ↔ c.toNat / 2 ^ flagPos flag % 2 = 1 := by
  rw [flagSet, ← BitVec.testBit_toNat, Nat.testBit_eq_decide_div_mod_eq, decide_eq_true_iff]

/-- A command that runs a query leaves its result in RES0. -/
theorem res0_of_query {q : Segment → Word} (hq : commandOf i = query q) (hg : s.unit.seg = some g)
    (ht : exec i s = .next t) : t.unit.res0 = some (q g) := by
  rw [exec_eq_complete, hq, complete_query_some hg] at ht
  cases ht
  rfl

/-- IS_RST_OR_FIN = IS_RST OR IS_FIN (43_accessors.md R215). -/
theorem isRstOrFin_eq_or {a b c : State} {x y z : Word} (hg : s.unit.seg = some g) (ha : exec .isRst s = .next a)
    (hb : exec .isFin s = .next b) (hc : exec .isRstOrFin s = .next c) (hx : a.unit.res0 = some x)
    (hy : b.unit.res0 = some y) (hz : c.unit.res0 = some z) : z = x ||| y := by
  obtain rfl := Option.some.inj ((res0_of_query rfl hg ha).symm.trans hx)
  obtain rfl := Option.some.inj ((res0_of_query rfl hg hb).symm.trans hy)
  obtain rfl := Option.some.inj ((res0_of_query rfl hg hc).symm.trans hz)
  exact boolWord_or _ _

/-- Settles O27: each predicate is the query of its flag bits. -/
theorem predicatesTestFlagBits : Obligations.PredicatesTestFlagBits := by
  refine ⟨query_claim_of_commandOf (by decide) ?_, query_claim_of_commandOf (by decide) ?_,
    query_claim_of_commandOf (by decide) ?_, query_claim_of_commandOf (by decide) ?_,
    query_claim_of_commandOf (by decide) ?_, fun s a b c ha hb hc x y z hseg hx hy hz => ?_⟩
  case refine_6 =>
    obtain ⟨g, hg⟩ := Option.ne_none_iff_exists'.1 hseg
    exact isRstOrFin_eq_or hg ha hb hc hx hy hz
  all_goals simp [commandOf, boolWord_eq_ite, flagSet_iff, flagPos]

/-! The frame of GET_FIELD OPTIONS and PAYLOAD -/

/-- GET_FIELD writes no operand register but the two lengths (43_accessors.md R206, R209). -/
theorem copyOut_scalars (f : Fid) (g : Segment) (b : OperandBank) :
    (copyOut f g b).srcAddr = b.srcAddr ∧ (copyOut f g b).dstAddr = b.dstAddr ∧ (copyOut f g b).srcPort = b.srcPort ∧
      (copyOut f g b).dstPort = b.dstPort ∧ (copyOut f g b).seq = b.seq ∧ (copyOut f g b).ack = b.ack ∧
      (copyOut f g b).ctl = b.ctl ∧ (copyOut f g b).window = b.window ∧ (copyOut f g b).checksum = b.checksum ∧
      (copyOut f g b).urgent = b.urgent := by
  cases f
  all_goals exact ⟨rfl, rfl, rfl, rfl, rfl, rfl, rfl, rfl, rfl, rfl⟩

/-- Settles O40: the copy is written to the one array and its length register and STATUS.CODE becomes OK, or a code is raised. -/
theorem getFieldSequenceFrame : Obligations.GetFieldSequenceFrame := by
  intro f s t _ ht
  rw [exec_eq_complete] at ht
  rcases complete_cases ht with ⟨v, hv, rfl⟩ | ⟨e, -, rfl⟩
  · obtain ⟨g, w, hg, -, rfl⟩ := getFieldCommand_ok hv
    refine ⟨⟨rfl, rfl, rfl, rfl, rfl⟩, copyOut_scalars f g s.unit.inp, rfl, rfl, rfl, rfl, ?_, ?_⟩
    · rintro rfl
      refine ⟨rfl, rfl, fun g' x hg' hx => ?_⟩
      obtain rfl : g' = g := Option.some.inj (hg'.symm.trans hg)
      exact read_writeBytes_above hx
    · rintro rfl
      refine ⟨rfl, rfl, fun g' x hg' hx => ?_⟩
      obtain rfl : g' = g := Option.some.inj (hg'.symm.trans hg)
      exact read_writeBytes_above hx
  · exact ⟨⟨rfl, rfl, rfl, rfl, rfl⟩, ⟨rfl, rfl, rfl, rfl, rfl, rfl, rfl, rfl, rfl, rfl⟩, rfl, rfl, rfl, rfl,
      fun _ => ⟨rfl, rfl, fun _ _ _ _ => rfl⟩, fun _ => ⟨rfl, rfl, fun _ _ _ _ => rfl⟩⟩

end Sys2Proof.Machine
end

section
/-! FORMAT: the command with a segment and without one, and the flag summary as an injective code of the four flags it shows. -/

namespace Sys2Proof.Machine

variable {s : State} {u : CodecUnit} {g : Segment} {c d : Half}

/-! The results of FORMAT -/

theorem formatCommand_eq_ok (hg : u.seg = some g) :
    formatCommand u = .ok { u with res0 := some (flagSummary g.ctl), res1 := some (g.srcPort ++ g.dstPort),
                                   res2 := some Config.tcpLayerTag } :=
  needSegment_some hg

theorem formatCommand_noSegment (hg : u.seg = none) : formatCommand u = .error .noSegment :=
  needSegment_none hg

/-- FORMAT with a segment: the three results, STATUS.CODE is OK, nothing else changes (44_diagnostic.md R230). -/
theorem exec_format (hg : s.unit.seg = some g) :
    exec .format s = .next { s with unit := { s.unit with
      res0 := some (flagSummary g.ctl), res1 := some (g.srcPort ++ g.dstPort), res2 := some Config.tcpLayerTag,
      code := .ok } } :=
  (exec_eq_complete ..).trans (complete_ok (formatCommand_eq_ok hg))

/-- The source port in bits 31:16 and the destination port in bits 15:0 (44_diagnostic.md R230). -/
theorem halves_append_eq_ofNat (x y : Half) : (x ++ y : Word) = BitVec.ofNat 32 (x.toNat * 0x10000 + y.toNat) := by
  calc x ++ y = BitVec.ofNat 32 (x ++ y).toNat := by rw [BitVec.ofNat_toNat, BitVec.setWidth_eq]
    _ = _ := by rw [toNat_append_eq_add, Nat.mul_comm]; rfl

/-- Settles O28: FORMAT's own results are those of R230, with the ports' concatenation read as a number. -/
theorem formatReturnsElements : Obligations.FormatReturnsElements := by
  refine ⟨by decide, fun s => ⟨fun g hg => ?_, fun hg => exec_raises (formatCommand_noSegment hg)⟩⟩
  rw [← halves_append_eq_ofNat]
  exact exec_format hg

/-! The flag summary -/

/-- A letter other than '.' tells a set flag from a clear one (44_diagnostic.md R231). -/
theorem flagChar_inj {letter : Byte} (h : letter ≠ 0x2E) {p q : Bool} :
    flagChar p letter = flagChar q letter ↔ p = q :=
  (Bool.injective_iff (f := (flagChar · letter)).2 h.symm).eq_iff

/-- Two concatenations of the same widths are equal exactly when both their parts are. -/
theorem bitVec_append_inj {m n : Nat} {x x' : BitVec m} {y y' : BitVec n} : x ++ y = x' ++ y' ↔ x = x' ∧ y = y' := by
  refine ⟨fun h => ⟨?_, ?_⟩, fun ⟨hx, hy⟩ => by rw [hx, hy]⟩
  · have := congrArg (BitVec.extractLsb' n m) h
    rwa [BitVec.extractLsb'_append_eq_left, BitVec.extractLsb'_append_eq_left] at this
  · have := congrArg (BitVec.extractLsb' 0 n) h
    rwa [BitVec.extractLsb'_append_eq_right, BitVec.extractLsb'_append_eq_right] at this

theorem bytes_append_inj {w x y z w' x' y' z' : Byte} :
    (w ++ x ++ y ++ z : Word) = w' ++ x' ++ y' ++ z' ↔ w = w' ∧ x = x' ∧ y = y' ∧ z = z' :=
  calc (w ++ x ++ y ++ z : Word) = w' ++ x' ++ y' ++ z'
    _ ↔ w ++ x ++ y = w' ++ x' ++ y' ∧ z = z' := bitVec_append_inj
    _ ↔ ((w = w' ∧ x = x') ∧ y = y') ∧ z = z' := by rw [bitVec_append_inj, bitVec_append_inj]
    _ ↔ _ := by rw [and_assoc, and_assoc]

/-- Two words have the same summary exactly when they agree on the four flags it shows. -/
theorem flagSummary_eq_iff : flagSummary c = flagSummary d ↔
    flagSet .ack c = flagSet .ack d ∧ flagSet .rst c = flagSet .rst d ∧ flagSet .syn c = flagSet .syn d ∧
      flagSet .fin c = flagSet .fin d := by
  rw [flagSummary, flagSummary, bytes_append_inj, flagChar_inj (by decide), flagChar_inj (by decide),
    flagChar_inj (by decide), flagChar_inj (by decide)]

/-- Two words agree under a mask exactly when they agree on its bits. -/
theorem and_eq_and_iff {n : Nat} {x y m : BitVec n} :
    x &&& m = y &&& m ↔ ∀ i, m.getLsbD i = true → x.getLsbD i = y.getLsbD i := by
  constructor
  · intro h i hi
    simpa [hi] using congrArg (·.getLsbD i) h
  · intro h
    apply BitVec.eq_of_getLsbD_eq
    intro i _
    rw [BitVec.getLsbD_and, BitVec.getLsbD_and]
    cases hm : m.getLsbD i with
    | false => rw [Bool.and_false, Bool.and_false]
    | true => rw [h i hm]

/-- The bits of the mask 0x17 are the positions of the four flags. -/
theorem getLsbD_summaryMask {i : Nat} : (0x17 : Half).getLsbD i = true ↔
    i = flagPos .ack ∨ i = flagPos .rst ∨ i = flagPos .syn ∨ i = flagPos .fin := by
  by_cases hi : i < 16
  · decide +revert
  · rw [BitVec.getLsbD_of_ge _ _ (by omega)]
    simp only [flagPos, Bool.false_eq_true, false_iff]
    omega

/-- 44_diagnostic.md R232: the summary is determined by bits 4, 2, 1 and 0, and determines them. -/
theorem flagSummary_eq_iff_mask : flagSummary c = flagSummary d ↔ c &&& 0x17 = d &&& 0x17 := by
  simp only [flagSummary_eq_iff, and_eq_and_iff, getLsbD_summaryMask, forall_eq_or_imp, forall_eq, flagSet]

theorem flagSet_congr (h : flagBits c = flagBits d) (flag : TcpFlag) : flagSet flag c = flagSet flag d := by
  rw [← packCtl_fields c, ← packCtl_fields d, flagSet_packCtl, flagSet_packCtl, h]

/-- Whatever the data offset and the reserved field, the summary is that of the flags alone. -/
theorem flagSummary_of_flags {n : Nat} (h : c.toNat % 0x100 = n) : flagSummary c = flagSummary (BitVec.ofNat 16 n) := by
  have hflags : flagBits c = flagBits (BitVec.ofNat 16 n) := by
    apply BitVec.eq_of_toNat_eq
    rw [toNat_flagBits, toNat_flagBits, BitVec.toNat_ofNat]
    omega
  simp only [flagSummary, flagSet_congr hflags]

/-- Settles O29: a row of the table is the summary of its flags alone. -/
theorem formatSummaryTable : Obligations.FormatSummaryTable := by
  refine ⟨?_, ?_, ?_, ?_, ?_, ?_, ?_, ?_, ?_, fun c d => flagSummary_eq_iff_mask⟩
  all_goals exact fun c h => (flagSummary_of_flags h).trans (by decide)

end Sys2Proof.Machine
end

section
/-! Units share no state: what a step does to the unit accessed and to the last read depends on those two alone, and no step
changes another unit (60_exceptions.md R257). -/

namespace Sys2Proof.Machine

variable {s s' t : State} {c : Command} {e : Event} {rest : List Event}

/-! What an access works on -/

/-- What an access to a unit reads and writes: the state of the unit accessed and the last read. -/
def here (s : State) : CodecUnit × Option ReadReply := (s.unit, s.lastRead)

theorem here_eq_iff : here s' = here s ↔ s'.unit = s.unit ∧ s'.lastRead = s.lastRead := Prod.ext_iff

/-- An outcome cut down to what an access works on. -/
def resultHere : Result → Host.Outcome (CodecUnit × Option ReadReply) Fault Refusal
  | .next t => .next (here t)
  | .fault f => .fault f
  | .refused r => .refused r

theorem resultHere_eq_next {r : Result} (h : resultHere r = .next (here t)) : ∃ t', r = .next t' ∧ here t' = here t := by
  cases r with
  | next t' => exact ⟨t', rfl, Host.Outcome.next.inj h⟩
  | fault _ | refused _ => cases h

theorem resultHere_eq_fault {r : Result} {f : Fault} (h : resultHere r = .fault f) : r = .fault f := by
  cases r with
  | fault _ => cases h; rfl
  | next _ | refused _ => cases h

theorem complete_congr (h : here s' = here s) : resultHere (complete c s') = resultHere (complete c s) := by
  obtain ⟨hunit, hlast⟩ := here_eq_iff.1 h
  simp only [complete, resultHere, here, setUnit_unit, setUnit_lastRead, hunit, hlast]

theorem runCommandWord_congr (w : Word) (h : here s' = here s) :
    resultHere (runCommandWord w s') = resultHere (runCommandWord w s) := by
  cases hd : decode w with
  | ok i =>
    rw [runCommandWord_ok hd, runCommandWord_ok hd, exec_eq_complete, exec_eq_complete]
    exact complete_congr h
  | error d =>
    rw [runCommandWord_error hd, runCommandWord_error hd]
    exact complete_congr (c := fun _ => .error .illegalCommand) h

/-- An access works on the unit accessed and the last read alone. -/
theorem runAccess_congr (a : Access) (h : here s' = here s) : resultHere (runAccess a s') = resultHere (runAccess a s) := by
  obtain ⟨hunit, hlast⟩ := here_eq_iff.1 h
  cases a with
  | read w off =>
    cases hg : resolve w off with
    | error f => simp only [runAccess, hg]
    | ok g => simp only [runAccess, hg, resultHere, here, hunit]
  | write w off x =>
    cases hg : resolve w off with
    | error f => simp only [runAccess, hg]
    | ok g =>
      by_cases hc : g = .reg .cmd
      · subst hc
        simp only [runAccess, hg]
        exact runCommandWord_congr x h
      · rw [runAccess_store x s' hg hc, runAccess_store x s hg hc]
        simp only [resultHere, here, setUnit_unit, setUnit_lastRead, hunit, hlast]

/-! Turning to the event's unit -/

/-- A good state can turn to a unit exactly if the unit exists: which one it stands at makes no difference. -/
theorem selectUnit_eq_none_iff (hs : StateGood s) {i : Nat} : selectUnit i s = none ↔ Config.numUnits ≤ i := by
  have hsel := hs.exists_
  rw [selectUnit_none]
  omega

theorem here_selectUnit (hs : StateGood s) {i : Nat} (h : selectUnit i s = some t) : here t = (s.unitAt i, s.lastRead) := by
  obtain ⟨-, hunit, -, hlast, -⟩ := selectUnit_spec hs.parkedRising h
  rw [here, hunit, hlast]

/-- An event to a unit that does not exist has no step (00_scope.md R7). -/
theorem runEvent_none (h : selectUnit (eventUnit e) s = none) : runEvent e s = .fault (.noSuchUnit (eventUnit e)) := by
  cases e with
  | access i a | reset i =>
    simp only [eventUnit] at h ⊢
    simp only [runEvent, h]

/-- An event works on its unit and the last read alone. -/
theorem runEvent_congr (hs : StateGood s) (hs' : StateGood s') (hunit : s'.unitAt (eventUnit e) = s.unitAt (eventUnit e))
    (hlast : s'.lastRead = s.lastRead) : resultHere (runEvent e s') = resultHere (runEvent e s) := by
  cases hr : selectUnit (eventUnit e) s with
  | none =>
    have hr' : selectUnit (eventUnit e) s' = none :=
      (selectUnit_eq_none_iff hs').2 ((selectUnit_eq_none_iff hs).1 hr)
    rw [runEvent_none hr, runEvent_none hr']
  | some r =>
    obtain ⟨r', hr'⟩ : ∃ r', selectUnit (eventUnit e) s' = some r' :=
      Option.ne_none_iff_exists'.1 fun hn =>
        Option.some_ne_none r (hr.symm.trans ((selectUnit_eq_none_iff hs).2 ((selectUnit_eq_none_iff hs').1 hn)))
    have hhere : here r' = here r := by rw [here_selectUnit hs' hr', here_selectUnit hs hr, hunit, hlast]
    cases e with
    | access i a =>
      simp only [eventUnit] at hr hr'
      simp only [runEvent, hr, hr']
      exact runAccess_congr a hhere
    | reset i =>
      simp only [eventUnit] at hr hr'
      simp only [runEvent, hr, hr', resultHere, here, setUnit_unit, setUnit_lastRead, (here_eq_iff.1 hhere).2]

/-! The step -/

/-- A step with a pending event turns to the event's unit and leaves every other unit as it was. -/
theorem step_unitAt (hs : StateGood s) (hp : s.pending = e :: rest) (h : step s = .next t) :
    t.unitAt (eventUnit e) = t.unit ∧ ∀ j, j ≠ eventUnit e → t.unitAt j = s.unitAt j := by
  obtain ⟨r, hr, hsame, -⟩ := step_event hs hp h
  obtain ⟨hsel, -, -, -, hat⟩ := selectUnit_spec (s := { s with pending := rest }) hs.parkedRising hr
  refine ⟨if_pos (hsame.sel.trans hsel).symm, fun j hj => ?_⟩
  calc t.unitAt j = r.unitAt j := by simp only [State.unitAt, hsame.sel, hsame.parked, hsel, if_neg hj]
    _ = s.unitAt j := hat j

/-- Settles O48: the step works on the event's unit and the last read, in which the two states agree. -/
theorem unitsShareNoState : Obligations.UnitsShareNoState := by
  intro s s' e rest hs hs' hp hp' hunit hlast
  have hcongr : resultHere (step s') = resultHere (step s) := by
    rw [step_cons hp, step_cons hp']
    exact runEvent_congr hs.withPending hs'.withPending hunit hlast
  refine ⟨fun t h => ?_, fun f h => ?_⟩
  · obtain ⟨hat, hother⟩ := step_unitAt hs hp h
    rw [h] at hcongr
    obtain ⟨t', h', hhere⟩ := resultHere_eq_next hcongr
    obtain ⟨hat', -⟩ := step_unitAt hs' hp' h'
    obtain ⟨hunit', hlast'⟩ := here_eq_iff.1 hhere
    exact ⟨hother, t', h', hat'.trans (hunit'.trans hat.symm), hlast'⟩
  · rw [h] at hcongr
    exact resultHere_eq_fault hcongr

end Sys2Proof.Machine
end

section
/-! Status codes: which commands raise NO_SEGMENT, and what a command does to ERR_SEEN. -/

namespace Sys2Proof.Machine

variable {s t : State} {u v : CodecUnit} {i : Instr} {f : Fid} {b : OperandBank} {g : Segment}

/-! NO_SEGMENT (60_exceptions.md R244) -/

theorem scalarOperand_ne_noSegment {α : Type} {x : Option α} : scalarOperand x ≠ .error .noSegment := by
  cases x <;> nofun

theorem sequenceOperand_ne_noSegment {w : Nat} {len : Option (BitVec w)} {cap : Nat} {m : Memory} :
    sequenceOperand len cap m ≠ .error .noSegment := by
  unfold sequenceOperand
  split
  · nofun
  · split
    · nofun
    · exact scalarOperand_ne_noSegment

theorem capacityOperand_ne_noSegment : capacityOperand u ≠ .error .noSegment := by
  unfold capacityOperand
  split
  · nofun
  · split <;> nofun

theorem except_map_ne_error {α β : Type} {x : Except Cause α} {e : Cause} (k : α → β) (hx : x ≠ .error e) :
    x.map k ≠ .error e := by
  cases x with
  | error e' => exact fun h => hx (congrArg _ (Except.error.inj h))
  | ok a => nofun

theorem replaceField_ne_noSegment : replaceField f b g ≠ .error .noSegment := by
  cases f with
  | options => exact except_map_ne_error _ (optionsOperand_eq b ▸ sequenceOperand_ne_noSegment)
  | payload => exact except_map_ne_error _ (payloadOperand_eq b ▸ sequenceOperand_ne_noSegment)
  | illegal14 | illegal15 => nofun
  | srcPort | dstPort | seq | ack | dataOffset | reserved | flags | window | checksum | urgent | srcAddr | dstAddr =>
    exact except_map_ne_error _ scalarOperand_ne_noSegment

/-- A command that needs the segment, and whose later checks do not raise NO_SEGMENT, raises it exactly without a segment. -/
theorem needSegment_eq_noSegment_iff {k : Segment → Command} (hk : ∀ g, k g u ≠ .error .noSegment) :
    needSegment k u = .error .noSegment ↔ u.seg = none := by
  refine ⟨fun h => ?_, needSegment_none⟩
  cases hg : u.seg with
  | none => rfl
  | some g => exact absurd ((needSegment_some hg).symm.trans h) (hk g)

theorem newControl_ne_noSegment {flags : Byte} : newControl flags u ≠ .error .noSegment := by
  unfold newControl
  split <;> nofun

theorem fromHeaderCommand_ne_noSegment : fromHeaderCommand u ≠ .error .noSegment := by
  unfold fromHeaderCommand
  split
  · nofun
  · split
    · nofun
    · split <;> nofun

theorem parseCommand_ne_noSegment : parseCommand u ≠ .error .noSegment := by
  unfold parseCommand
  split
  · split
    · nofun
    · split
      · nofun
      · split
        · nofun
        · split
          · nofun
          · split <;> nofun
  · nofun

theorem setFieldCommand_eq_noSegment_iff :
    setFieldCommand f u = .error .noSegment ↔ f.legal = true ∧ u.seg = none := by
  cases hf : f.legal with
  | false => simp [setFieldCommand_reserved hf]
  | true =>
    simp only [setFieldCommand, hf, if_true, true_and]
    exact needSegment_eq_noSegment_iff fun g => except_map_ne_error _ replaceField_ne_noSegment

theorem getFieldCommand_eq_noSegment_iff :
    getFieldCommand f u = .error .noSegment ↔ f.legal = true ∧ u.seg = none := by
  cases hf : f.legal with
  | false => simp [getFieldCommand_reserved hf]
  | true =>
    simp only [getFieldCommand, hf, if_true, true_and]
    refine needSegment_eq_noSegment_iff fun g => ?_
    split <;> nofun

theorem query_eq_noSegment_iff {q : Segment → Word} : query q u = .error .noSegment ↔ u.seg = none :=
  needSegment_eq_noSegment_iff fun _ => nofun

theorem formatCommand_eq_noSegment_iff : formatCommand u = .error .noSegment ↔ u.seg = none :=
  needSegment_eq_noSegment_iff fun _ => nofun

theorem serializeCommand_eq_noSegment_iff : serializeCommand u = .error .noSegment ↔ u.seg = none := by
  refine needSegment_eq_noSegment_iff fun g => ?_
  split
  · next hc =>
    rintro ⟨⟩
    exact capacityOperand_ne_noSegment hc
  · split
    · nofun
    · split <;> nofun

theorem serializeFixupCommand_eq_noSegment_iff : serializeFixupCommand u = .error .noSegment ↔ u.seg = none := by
  refine needSegment_eq_noSegment_iff fun g => ?_
  split
  · next hc =>
    rintro ⟨⟩
    exact capacityOperand_ne_noSegment hc
  · split <;> nofun

/-- A command raises NO_SEGMENT exactly if it needs the segment and none is held. -/
theorem commandOf_eq_noSegment_iff : commandOf i u = .error .noSegment ↔ Claims.NeedsSegment i ∧ u.seg = none := by
  cases i with
  | newAck | newAckSyn | newRst => exact iff_of_false newControl_ne_noSegment And.left
  | fromHeader => exact iff_of_false fromHeaderCommand_ne_noSegment And.left
  | parse => exact iff_of_false parseCommand_ne_noSegment And.left
  | setField f => exact setFieldCommand_eq_noSegment_iff
  | getField f => exact getFieldCommand_eq_noSegment_iff
  | serialize => exact serializeCommand_eq_noSegment_iff.trans (and_iff_right trivial).symm
  | serializeFixup => exact serializeFixupCommand_eq_noSegment_iff.trans (and_iff_right trivial).symm
  | format => exact formatCommand_eq_noSegment_iff.trans (and_iff_right trivial).symm
  | getSize | tag | getSrcPort | getDstPort | getSeq | getAck | getSrcAddr | getDstAddr | isAck | isRst | isSyn | isFin
  | isRstOrFin => exact query_eq_noSegment_iff.trans (and_iff_right trivial).symm

/-- Settles O30: a command that ends with NO_SEGMENT has raised it. -/
theorem noSegmentExactlyWhenNeeded : Obligations.NoSegmentExactlyWhenNeeded := by
  refine ⟨fun i s hi hg => exec_raises (commandOf_eq_noSegment_iff.2 ⟨hi, hg⟩), fun i s t ht hcode => ?_⟩
  rw [exec_eq_complete] at ht
  rcases complete_cases ht with ⟨v, -, rfl⟩ | ⟨e, he, rfl⟩
  · cases hcode
  · cases hcode
    exact commandOf_eq_noSegment_iff.1 he

/-! ERR_SEEN and the codes (60_exceptions.md R240, R243) -/

theorem codeByte_le (c : Code) : (codeByte c).toNat ≤ 7 := by
  cases c with
  | ok => decide
  | raised e => cases e <;> decide

/-- A command that succeeds has not written ERR_SEEN. -/
theorem commandOf_errSeen (hv : commandOf i u = .ok v) : v.errSeen = u.errSeen := by
  cases i with
  | newAck | newAckSyn | newRst =>
    obtain ⟨o, -, rfl⟩ := newControl_ok hv
    rfl
  | fromHeader =>
    obtain ⟨r, opt, pay, -, -, -, -, -, rfl⟩ := fromHeaderCommand_ok hv
    rfl
  | setField f =>
    obtain ⟨g, h, -, -, rfl⟩ := setFieldCommand_ok hv
    rfl
  | parse =>
    obtain ⟨len, sa, da, hdr, opt, -, -, -, -, -, -, -, -, rfl⟩ := parseCommand_ok hv
    rfl
  | serialize =>
    obtain ⟨g, -, rfl⟩ := serialization_ok (.inl rfl) hv
    rfl
  | serializeFixup =>
    obtain ⟨g, -, rfl⟩ := serialization_ok (.inr rfl) hv
    rfl
  | getField f =>
    obtain ⟨g, w, -, -, rfl⟩ := getFieldCommand_ok hv
    rfl
  | format =>
    obtain ⟨g, -, rfl⟩ := formatCommand_ok hv
    rfl
  | getSize | tag | getSrcPort | getDstPort | getSeq | getAck | getSrcAddr | getDstAddr | isAck | isRst | isSyn | isFin
  | isRstOrFin =>
    obtain ⟨g, -, rfl⟩ := query_ok hv
    rfl

/-- Settles O31: a command marks its writes OK, and none of them is to ERR_SEEN, or it raises a code on the unit as it was. -/
theorem raiseChangesOnlyStatus : Obligations.RaiseChangesOnlyStatus := by
  intro i s
  cases hc : commandOf i s.unit with
  | ok v =>
    exact ⟨_, (exec_eq_complete i s).trans (complete_ok hc), codeByte_le _, nofun,
      fun _ => (commandOf_errSeen hc : v.errSeen = _)⟩
  | error e =>
    refine ⟨_, exec_raises hc, codeByte_le _, ?_, nofun⟩
    rintro _ ⟨⟩
    rfl

end Sys2Proof.Machine
end

section
/-! Reset: ERR_SEEN and SEG_VALID of a unit are cleared by its reset alone, and a reset touches its own unit alone
(70_reset_and_hazards.md R270). -/

namespace Sys2Proof.Machine

variable {s r : State} {u v : CodecUnit} {rest : List Event}

/-! The sticky bits -/

@[simp] theorem storeBytes_seg (a : HostArray) (i : Nat) (bs : List Byte) (u : CodecUnit) :
    (storeBytes a i bs u).seg = u.seg := by
  cases a <;> rfl

@[simp] theorem storeBytes_errSeen (a : HostArray) (i : Nat) (bs : List Byte) (u : CodecUnit) :
    (storeBytes a i bs u).errSeen = u.errSeen := by
  cases a <;> rfl

/-- No primitive write clears ERR_SEEN (10_state.md R43): a raised code sets it. -/
theorem UnitWrites.errSeen (h : UnitWrites u v) (hu : u.errSeen = true) : v.errSeen = true := by
  induction h with
  | none => exact hu
  | segment _ _ _ ih | result _ _ ih | results _ _ _ _ ih | ok _ ih => exact ih
  | register r w _ ih => rwa [writeReg_errSeen]
  | bytes a i bs _ _ ih => rwa [storeBytes_errSeen]
  | raised => rfl

/-- No primitive write clears SEG_VALID (10_state.md R35): a loaded segment sets it. -/
theorem UnitWrites.segValid (h : UnitWrites u v) (hu : u.seg.isSome = true) : v.seg.isSome = true := by
  induction h with
  | none => exact hu
  | segment => rfl
  | result _ _ ih | results _ _ _ _ ih | ok _ ih | raised _ _ ih => exact ih
  | register r w _ ih => rwa [writeReg_seg]
  | bytes a i bs _ _ ih => rwa [storeBytes_seg]

/-- Settles O32: any other event makes only primitive writes to the unit. -/
theorem stickyBitsClearedOnlyByReset : Obligations.StickyBitsClearedOnlyByReset := by
  intro s t e rest i hs hp he h
  have hw : UnitWrites (s.unitAt i) (t.unitAt i) := step_unitAt_writes hs hp h he
  exact ⟨hw.errSeen, hw.segValid⟩

/-! The reset of a unit -/

/-- A reset puts the unit turned to in its reset state. -/
theorem step_reset {i : Nat} (hp : s.pending = .reset i :: rest) (hr : selectUnit i { s with pending := rest } = some r) :
    step s = .next (r.setUnit CodecUnit.reset) := by
  rw [step_cons hp]
  simp only [runEvent, hr]

/-- Settles O47: turning to the unit changes no unit, and the reset replaces the state of the one turned to. -/
theorem resetEventResetsOneUnit : Obligations.ResetEventResetsOneUnit := by
  intro s i rest hs hi hp
  obtain ⟨r, hr⟩ := selectUnit_total hi { s with pending := rest }
  obtain ⟨hsel, -, hpending, hlast, hat⟩ := selectUnit_spec (s := { s with pending := rest }) hs.parkedRising hr
  refine ⟨_, step_reset hp hr, ?_, fun j hj => ?_, hpending, hlast⟩
  · rw [unitAt_setUnit, if_pos hsel.symm, unitAt_stateReset]
  · rw [unitAt_setUnit, if_neg (hsel ▸ hj)]
    exact hat j

end Sys2Proof.Machine
end

section
/-! Host accesses to array bytes (20_memory.md R61) and the step of a pending CMD write (10_state.md R42). -/

namespace Sys2Proof.Machine

variable {s : State} {a : HostArray} {k : Nat} {w : Width} {x : Word} {bs : List Byte} {rest : List Event}

/-! Bytes on the bus -/

theorem busValue_w32 (b0 b1 b2 b3 : Byte) : busValue .w32 [b0, b1, b2, b3] = b0 ++ b1 ++ b2 ++ b3 := rfl

theorem busValue_w16 (b0 b1 : Byte) : busValue .w16 [b0, b1] = BitVec.ofNat 32 (b0.toNat * 0x100 + b1.toNat) :=
  calc busValue .w16 [b0, b1] = BitVec.ofNat 32 (b0 ++ b1 : Half).toNat := (BitVec.ofNat_toNat ..).symm
    _ = _ := by rw [toNat_append_eq_add, Nat.mul_comm]; rfl

theorem busValue_w8 (b0 : Byte) : busValue .w8 [b0] = BitVec.ofNat 32 b0.toNat := (BitVec.ofNat_toNat ..).symm

/-- The j-th byte stored is the j-th from the top of the low bits that the width covers. -/
theorem busBytes_getElem? (x : Word) {j : Nat} (hj : j < widthBytes w) :
    (busBytes w x)[j]? = some (x.extractLsb' (8 * (widthBytes w - 1 - j)) 8) := by
  cases w with
  | w8 =>
    obtain rfl : j = 0 := by simpa [widthBytes] using hj
    exact congrArg some (BitVec.setWidth_eq_extractLsb' (by decide))
  | w16 =>
    match j, hj with
    | 0, _ => exact congrArg some (BitVec.extractLsb'_setWidth_of_le (start := 8) (by decide))
    | 1, _ => exact congrArg some (BitVec.extractLsb'_setWidth_of_le (start := 0) (by decide))
  | w32 =>
    match j, hj with
    | 0, _ | 1, _ | 2, _ | 3, _ => rfl

/-! The accesses -/

/-- The host reads an aligned place of an array (20_memory.md R61). -/
theorem step_readArray (hp : s.pending = .access s.sel (.read w (BitVec.ofNat 18 (arrayBase a + k))) :: rest)
    (hal : k % widthBytes w = 0) (hin : k + widthBytes w ≤ arraySize a) :
    step s = .next { s with pending := rest,
                            lastRead := some (readReply (((arrayMemory a s.unit).readBytes k (widthBytes w)).map (busValue w))) } := by
  rw [step_access hp]
  simp only [runAccess, resolve_bytes hal hin, hostRead]

/-- A read of defined bytes replies with their bus value. -/
theorem step_readArray_of_holds (hp : s.pending = .access s.sel (.read w (BitVec.ofNat 18 (arrayBase a + k))) :: rest)
    (hal : k % widthBytes w = 0) (hin : k + widthBytes w ≤ arraySize a) (hlen : bs.length = widthBytes w)
    (h : Claims.Holds (arrayMemory a s.unit) k bs) :
    step s = .next { s with pending := rest, lastRead := some (.value (busValue w bs)) } := by
  rw [step_readArray hp hal hin, readBytes_eq_some.2 ⟨hlen, hlen ▸ h⟩]
  rfl

/-- A read that covers an undefined byte replies ⊥ (10_state.md R41). -/
theorem step_readArray_of_undefined (hp : s.pending = .access s.sel (.read w (BitVec.ofNat 18 (arrayBase a + k))) :: rest)
    (hal : k % widthBytes w = 0) (hin : k + widthBytes w ≤ arraySize a)
    (h : ∃ j, j < widthBytes w ∧ (arrayMemory a s.unit).read (k + j) = none) :
    step s = .next { s with pending := rest, lastRead := some .undefined } := by
  rw [step_readArray hp hal hin, readBytes_eq_none.2 h]
  rfl

/-- The host writes an aligned place of an array (20_memory.md R61). -/
theorem step_writeArray (hp : s.pending = .access s.sel (.write w (BitVec.ofNat 18 (arrayBase a + k)) x) :: rest)
    (hal : k % widthBytes w = 0) (hin : k + widthBytes w ≤ arraySize a) :
    step s = .next { s with pending := rest, unit := storeBytes a k (busBytes w x) s.unit } := by
  rw [step_access hp]
  exact runAccess_store x _ (resolve_bytes hal hin) nofun

theorem arrayMemory_storeBytes (u : CodecUnit) :
    arrayMemory a (storeBytes a k bs u) = (arrayMemory a u).writeBytes k bs := arrayMemory_setArrayMemory ..

/-- Settles O44: a read replies with the bus value of the bytes it covers or ⊥, a write stores the bus value's bytes. -/
theorem hostArrayAccessIsBigEndian : Obligations.HostArrayAccessIsBigEndian := by
  intro s a k w rest hal hin
  refine ⟨fun hp => ⟨?w32, ?w16, ?w8, step_readArray_of_undefined hp hal hin⟩, fun x hp => ?write⟩
  case w32 =>
    rintro b0 b1 b2 b3 rfl h
    rw [← busValue_w32]
    exact step_readArray_of_holds hp hal hin rfl h
  case w16 =>
    rintro b0 b1 rfl h
    rw [← busValue_w16]
    exact step_readArray_of_holds hp hal hin rfl h
  case w8 =>
    rintro b0 rfl h
    rw [← busValue_w8]
    exact step_readArray_of_holds hp hal hin rfl (by simpa [Claims.Holds] using h)
  case write =>
    have hlen := length_busBytes w x
    refine ⟨_, step_writeArray hp hal hin, ?_, fun j hj => ?_, fun y hy => ?_⟩
    · rw [arrayMemory_storeBytes, storeBytes]
    · rw [arrayMemory_storeBytes, holds_writeBytes _ _ _ j (hlen.symm ▸ hj), busBytes_getElem? x hj]
    · rw [arrayMemory_storeBytes, read_writeBytes_outside (hlen.symm ▸ hy)]

/-! The step of a CMD write -/

/-- A 32-bit table word is the word itself. -/
theorem tableWord_toNat (x : Word) : tableWord 32 x.toNat = x := (word_eq_ofNat_mod x).symm

/-- Settles O5: a CMD write runs the word it carries, and `withFetchWord` puts such a write first. -/
theorem stepRunsDecodedCommand : Obligations.StepRunsDecodedCommand := by
  refine ⟨fun s x i rest hd hp => ?_, fun s x i hd => ?_, fun s => step_idle⟩
  · rw [step_commandWrite hp, runCommandWord_ok hd]
  · rw [State.withFetchWord, tableWord_toNat, step_commandWrite (w := x) (rest := s.pending) rfl]
    exact runCommandWord_ok hd

end Sys2Proof.Machine
end
